-- ==== Sys2Proof/Word.lean ====
section
/-! DEFINITION. The machine's word types and register indexes (00_scope.md R7, R9, R10). -/

namespace Sys2Proof

/-- A memory byte, a general register, a timer or an immediate kk (R7). -/
abbrev Byte := BitVec 8

/-- An instruction word, I, PC or a stack entry (R7). -/
abbrev Word := BitVec 16

/-- The 12-bit address field addr (30_encoding.md R72, R73). -/
abbrev Addr := BitVec 12

/-- The index of a general register: always in 0..15 (10_state.md R21). -/
abbrev Reg := Fin 16

/-- The index of a key: 0x0 to 0xF (10_state.md R31). -/
abbrev Key := Fin 16

/-- VF, which is also the flag register (10_state.md R22). -/
abbrev vF : Reg := 15

end Sys2Proof
end

