-- ==== Sys2Proof/Config.lean ====
section
/-! DEFINITION. The sizes the spec fixes (00_scope.md R7), the parameters it leaves open with their defaults (R8), and
the one free value, the random byte of RND. -/

namespace Sys2Proof.Config

/-- MEM_SIZE (R7): the first address that does not exist. -/
abbrev memSize : Nat := 4096

/-- PROG_START (R7): reset PC and load address. -/
abbrev progStart : Nat := 0x200

/-- STACK_DEPTH (R7). -/
abbrev stackDepth : Nat := 16

/-- The length of the font region, 16 glyphs of 5 bytes (R7). -/
abbrev fontSize : Nat := 80

/-- DRAW_ZERO_ROWS (R8, 40_display.md R104): what DRW does with height 0. -/
inductive DrawZeroRows
  | empty
  | fault
deriving DecidableEq, Repr

/-- The parameters a step depends on (R8). Both values of each are modelled; a state carries them (log entry 4). -/
structure Params where
  /-- HALT_SENTINEL (30_encoding.md R78): the word 0xFFFF raises Halt, not IllegalInstruction. -/
  haltSentinel : Bool
  /-- DRAW_ZERO_ROWS (40_display.md R104). -/
  drawZeroRows : DrawZeroRows
deriving DecidableEq, Repr

/-- The spec's defaults (R8, D5, D13). -/
def defaultParams : Params := { haltSentinel := true, drawZeroRows := .empty }

/-- FONT (R8): 16 glyphs of 5 bytes, glyph 0 first, top row first (10_state.md R33). -/
abbrev Font := Vector (Vector Byte 5) 16

/-- The spec's default FONT, the conventional CHIP-8 font (10_state.md R33, D18; log entry 6). -/
def conventionalFont : Font :=
  #v[#v[0xF0, 0x90, 0x90, 0x90, 0xF0],
     #v[0x20, 0x60, 0x20, 0x20, 0x70],
     #v[0xF0, 0x10, 0xF0, 0x80, 0xF0],
     #v[0xF0, 0x10, 0xF0, 0x10, 0xF0],
     #v[0x90, 0x90, 0xF0, 0x10, 0x10],
     #v[0xF0, 0x80, 0xF0, 0x10, 0xF0],
     #v[0xF0, 0x80, 0xF0, 0x90, 0xF0],
     #v[0xF0, 0x10, 0x20, 0x40, 0x40],
     #v[0xF0, 0x90, 0xF0, 0x90, 0xF0],
     #v[0xF0, 0x90, 0xF0, 0x10, 0xF0],
     #v[0xF0, 0x90, 0xF0, 0x90, 0x90],
     #v[0xE0, 0x90, 0xE0, 0x90, 0xE0],
     #v[0xF0, 0x80, 0x80, 0x80, 0xF0],
     #v[0xE0, 0x90, 0x90, 0x90, 0xE0],
     #v[0xF0, 0x80, 0xF0, 0x80, 0xF0],
     #v[0xF0, 0x80, 0xF0, 0x80, 0x80]]

/-- RESET_REGS (R8): the reset values the source does not give (10_state.md R37). -/
structure ResetRegs where
  v : Vector Byte 16
  i : Word
  dt : Byte
  st : Byte
  stack : Vector Word 16
deriving DecidableEq, Repr

/-- The spec's default RESET_REGS: all zero (R8, D17; log entry 5). -/
def zeroRegs : ResetRegs :=
  { v := Vector.replicate 16 0, i := 0, dt := 0, st := 0, stack := Vector.replicate 16 0 }

/-- RAND (R8, 42_alu.md R152): the value of the n-th draw, any byte. A free value: it has no body, so no proof can see
what it is (D19; log entry 3). -/
opaque freeByte : Nat → Byte

end Sys2Proof.Config
end

