-- ==== Sys2Proof/Syntax.lean ====
section
/-! DEFINITION. The 34 instructions (30_encoding.md R75), one constructor per row of the opcode table, and the operand
fields a word carries (R72, R74). -/

namespace Sys2Proof

/-- The instruction set (30_encoding.md R75). Operand names are the spec's: x, y registers, kk, n, addr (R72). SHR and
SHL keep the y field they decode and ignore (42_alu.md R149, R151), so that no bit of a word is lost. -/
inductive Instr
  /-- 00E0, clear screen (40_display.md R101). -/
  | cls
  /-- 00EE, return (41_control_flow.md R121). -/
  | ret
  /-- 1NNN, JP addr (R122). -/
  | jp (addr : Addr)
  /-- 2NNN, CALL addr (R123). -/
  | call (addr : Addr)
  /-- 3XKK, SE Vx, kk (R124). -/
  | seImm (x : Reg) (kk : Byte)
  /-- 4XKK, SNE Vx, kk (R125). -/
  | sneImm (x : Reg) (kk : Byte)
  /-- 5XY0, SE Vx, Vy (R126). -/
  | seReg (x y : Reg)
  /-- 6XKK, LD Vx, kk (42_alu.md R141). -/
  | ldImm (x : Reg) (kk : Byte)
  /-- 7XKK, ADD Vx, kk (R142). -/
  | addImm (x : Reg) (kk : Byte)
  /-- 8XY0, LD Vx, Vy (R143). -/
  | ldReg (x y : Reg)
  /-- 8XY1, OR Vx, Vy (R144). -/
  | or (x y : Reg)
  /-- 8XY2, AND Vx, Vy (R145). -/
  | and (x y : Reg)
  /-- 8XY3, XOR Vx, Vy (R146). -/
  | xor (x y : Reg)
  /-- 8XY4, ADD Vx, Vy (R147). -/
  | addReg (x y : Reg)
  /-- 8XY5, SUB Vx, Vy (R148). -/
  | sub (x y : Reg)
  /-- 8XY6, SHR Vx, y ignored (R149). -/
  | shr (x y : Reg)
  /-- 8XY7, SUBN Vx, Vy (R150). -/
  | subn (x y : Reg)
  /-- 8XYE, SHL Vx, y ignored (R151). -/
  | shl (x y : Reg)
  /-- 9XY0, SNE Vx, Vy (41_control_flow.md R127). -/
  | sneReg (x y : Reg)
  /-- ANNN, LD I, addr (43_index_memory.md R170). -/
  | ldI (addr : Addr)
  /-- BNNN, JP V0, addr (41_control_flow.md R128). -/
  | jpV0 (addr : Addr)
  /-- CXKK, RND Vx, kk (42_alu.md R152). -/
  | rnd (x : Reg) (kk : Byte)
  /-- DXYN, DRW Vx, Vy, n (40_display.md R102). -/
  | drw (x y : Reg) (n : Fin 16)
  /-- EX9E, SKP Vx (44_timers_keys.md R190). -/
  | skp (x : Reg)
  /-- EXA1, SKNP Vx (R191). -/
  | sknp (x : Reg)
  /-- FX07, LD Vx, DT (R192). -/
  | ldVxDt (x : Reg)
  /-- FX0A, LD Vx, K (R193). -/
  | ldVxK (x : Reg)
  /-- FX15, LD DT, Vx (R194). -/
  | ldDtVx (x : Reg)
  /-- FX18, LD ST, Vx (R195). -/
  | ldStVx (x : Reg)
  /-- FX1E, ADD I, Vx (43_index_memory.md R171). -/
  | addI (x : Reg)
  /-- FX29, LD F, Vx (R172). -/
  | ldF (x : Reg)
  /-- FX33, LD B, Vx (R173). -/
  | ldB (x : Reg)
  /-- FX55, LD [I], Vx (R174). -/
  | ldMemVx (x : Reg)
  /-- FX65, LD Vx, [I] (R175). -/
  | ldVxMem (x : Reg)
deriving DecidableEq, Repr

/-- The row of spec/opcode_table.json an instruction stands for, by its mnemonic there. -/
def Instr.mnemonic : Instr → String
  | .cls => "CLS"
  | .ret => "RET"
  | .jp _ => "JP"
  | .call _ => "CALL"
  | .seImm _ _ => "SE_IMM"
  | .sneImm _ _ => "SNE_IMM"
  | .seReg _ _ => "SE_REG"
  | .ldImm _ _ => "LD_IMM"
  | .addImm _ _ => "ADD_IMM"
  | .ldReg _ _ => "LD_REG"
  | .or _ _ => "OR"
  | .and _ _ => "AND"
  | .xor _ _ => "XOR"
  | .addReg _ _ => "ADD_REG"
  | .sub _ _ => "SUB"
  | .shr _ _ => "SHR"
  | .subn _ _ => "SUBN"
  | .shl _ _ => "SHL"
  | .sneReg _ _ => "SNE_REG"
  | .ldI _ => "LD_I"
  | .jpV0 _ => "JP_V0"
  | .rnd _ _ => "RND"
  | .drw _ _ _ => "DRW"
  | .skp _ => "SKP"
  | .sknp _ => "SKNP"
  | .ldVxDt _ => "LD_VX_DT"
  | .ldVxK _ => "LD_VX_K"
  | .ldDtVx _ => "LD_DT_VX"
  | .ldStVx _ => "LD_ST_VX"
  | .addI _ => "ADD_I"
  | .ldF _ => "LD_F"
  | .ldB _ => "LD_B"
  | .ldMemVx _ => "LD_MEM_VX"
  | .ldVxMem _ => "LD_VX_MEM"

/-- The five operand fields of 30_encoding.md R72. -/
inductive FieldKind
  | x
  | y
  | n
  | kk
  | addr
deriving DecidableEq, Repr

/-- The width of a field in bits (R72). -/
def FieldKind.width : FieldKind → Nat
  | .x => 4
  | .y => 4
  | .n => 4
  | .kk => 8
  | .addr => 12

/-- An operand as an assembler is given it: a field and a number, before anything has checked that it fits (R82). -/
structure Operand where
  kind : FieldKind
  value : Nat
deriving DecidableEq, Repr

/-- The operand fields of an instruction, by its format (R74), most significant first. -/
def Instr.operands : Instr → List Operand
  | .cls | .ret => []
  | .jp a | .call a | .ldI a | .jpV0 a => [⟨.addr, a.toNat⟩]
  | .seImm x kk | .sneImm x kk | .ldImm x kk | .addImm x kk | .rnd x kk => [⟨.x, x.val⟩, ⟨.kk, kk.toNat⟩]
  | .seReg x y | .ldReg x y | .or x y | .and x y | .xor x y | .addReg x y | .sub x y | .shr x y | .subn x y
  | .shl x y | .sneReg x y => [⟨.x, x.val⟩, ⟨.y, y.val⟩]
  | .drw x y n => [⟨.x, x.val⟩, ⟨.y, y.val⟩, ⟨.n, n.val⟩]
  | .skp x | .sknp x | .ldVxDt x | .ldVxK x | .ldDtVx x | .ldStVx x | .addI x | .ldF x | .ldB x | .ldMemVx x
  | .ldVxMem x => [⟨.x, x.val⟩]

end Sys2Proof
end

