-- ==== Sys2Proof/WellFormed.lean ====
section
/-! DEFINITION. What is checked before anything runs: an operand fits its field (30_encoding.md R72), and a program
image fits the space above 0x200 (60_exceptions.md R218). -/

namespace Sys2Proof

/-- An operand fits its field: x, y and n in 0..15, kk in 0..255, addr in 0..4095 (R72). -/
def Operand.wellFormed (o : Operand) : Bool := decide (o.value < 2 ^ o.kind.width)

/-- Every operand of the instruction fits its field. The operand types make this so of every Instr
(Laws/PerInstr.lean, family OperandsFit): an instruction cannot name a register that does not exist (10_state.md R21). -/
def Instr.wellFormed (i : Instr) : Bool := i.operands.all Operand.wellFormed

/-- The image fits: 0x200 + len is at most 4096, so len is at most 3584 (60_exceptions.md R218, R227). -/
def imageFits (image : List Byte) : Bool := decide (Config.progStart + image.length ≤ Config.memSize)

end Sys2Proof
end

