-- ==== Sys2Proof/Decode.lean ====
section
/-! DEFINITION. The decoder (30_encoding.md R70 to R81), total on any bytes and refusing by name; the encoder, written
from the same table; and the table itself as data (R75), which the decoder is stated to agree with. -/

namespace Sys2Proof

/-- Why bytes do not decode. -/
inductive DecodeError
  /-- No row of the opcode table matches the word (R76). -/
  | illegal (w : Word)
  /-- Fewer than the 2 bytes an instruction takes (R70). -/
  | truncated
deriving DecidableEq, Repr

/-- d1 = w[15:12] (00_scope.md R9). -/
def nib1 (w : Word) : BitVec 4 := w.extractLsb' 12 4
/-- d2 = w[11:8], which is also x (R72). -/
def nib2 (w : Word) : BitVec 4 := w.extractLsb' 8 4
/-- d3 = w[7:4], which is also y. -/
def nib3 (w : Word) : BitVec 4 := w.extractLsb' 4 4
/-- d4 = w[3:0], which is also n. -/
def nib4 (w : Word) : BitVec 4 := w.extractLsb' 0 4

/-- The x field as a register index (R72, R80). -/
def fieldX (w : Word) : Reg := (nib2 w).toFin
/-- The y field as a register index. -/
def fieldY (w : Word) : Reg := (nib3 w).toFin
/-- The n field as a count. -/
def fieldN (w : Word) : Fin 16 := (nib4 w).toFin
/-- The kk field, w[7:0]. -/
def fieldKk (w : Word) : Byte := w.extractLsb' 0 8
/-- The addr field, w[11:0], the nibbles d2, d3, d4 in digit order (R73). -/
def fieldAddr (w : Word) : Addr := w.extractLsb' 0 12

/-- Group 0: the two fixed words (format FIX); every other 0NNN is illegal (R76). -/
def decodeFixed (w : Word) : Except DecodeError Instr :=
  if w = 0x00E0 then .ok .cls
  else if w = 0x00EE then .ok .ret
  else .error (.illegal w)

/-- Groups 5, 8 and 9 (format XYS): the sub-operation nibble d4 must match exactly (R76). -/
def decodeTwoReg (w : Word) : Except DecodeError Instr :=
  match (nib1 w).toNat, (nib4 w).toNat with
  | 0x5, 0x0 => .ok (.seReg (fieldX w) (fieldY w))
  | 0x8, 0x0 => .ok (.ldReg (fieldX w) (fieldY w))
  | 0x8, 0x1 => .ok (.or (fieldX w) (fieldY w))
  | 0x8, 0x2 => .ok (.and (fieldX w) (fieldY w))
  | 0x8, 0x3 => .ok (.xor (fieldX w) (fieldY w))
  | 0x8, 0x4 => .ok (.addReg (fieldX w) (fieldY w))
  | 0x8, 0x5 => .ok (.sub (fieldX w) (fieldY w))
  | 0x8, 0x6 => .ok (.shr (fieldX w) (fieldY w))
  | 0x8, 0x7 => .ok (.subn (fieldX w) (fieldY w))
  | 0x8, 0xE => .ok (.shl (fieldX w) (fieldY w))
  | 0x9, 0x0 => .ok (.sneReg (fieldX w) (fieldY w))
  | _, _ => .error (.illegal w)

/-- Groups E and F (format XOP): the sub-operation byte w[7:0] must match exactly (R76). -/
def decodeSubOp (w : Word) : Except DecodeError Instr :=
  match (nib1 w).toNat, (fieldKk w).toNat with
  | 0xE, 0x9E => .ok (.skp (fieldX w))
  | 0xE, 0xA1 => .ok (.sknp (fieldX w))
  | 0xF, 0x07 => .ok (.ldVxDt (fieldX w))
  | 0xF, 0x0A => .ok (.ldVxK (fieldX w))
  | 0xF, 0x15 => .ok (.ldDtVx (fieldX w))
  | 0xF, 0x18 => .ok (.ldStVx (fieldX w))
  | 0xF, 0x1E => .ok (.addI (fieldX w))
  | 0xF, 0x29 => .ok (.ldF (fieldX w))
  | 0xF, 0x33 => .ok (.ldB (fieldX w))
  | 0xF, 0x55 => .ok (.ldMemVx (fieldX w))
  | 0xF, 0x65 => .ok (.ldVxMem (fieldX w))
  | _, _ => .error (.illegal w)

/-- The decoder: d1 selects the group (R71), the literal parts of the row must match exactly (R75, R76). -/
def decodeWord (w : Word) : Except DecodeError Instr :=
  match (nib1 w).toNat with
  | 0x0 => decodeFixed w
  | 0x1 => .ok (.jp (fieldAddr w))
  | 0x2 => .ok (.call (fieldAddr w))
  | 0x3 => .ok (.seImm (fieldX w) (fieldKk w))
  | 0x4 => .ok (.sneImm (fieldX w) (fieldKk w))
  | 0x6 => .ok (.ldImm (fieldX w) (fieldKk w))
  | 0x7 => .ok (.addImm (fieldX w) (fieldKk w))
  | 0xA => .ok (.ldI (fieldAddr w))
  | 0xB => .ok (.jpV0 (fieldAddr w))
  | 0xC => .ok (.rnd (fieldX w) (fieldKk w))
  | 0xD => .ok (.drw (fieldX w) (fieldY w) (fieldN w))
  | 0x5 | 0x8 | 0x9 => decodeTwoReg w
  | _ => decodeSubOp w

/-- The instruction word of two bytes: the first is the high byte (20_memory.md R54). -/
def wordOfBytes (hi lo : Byte) : Word := hi ++ lo

/-- The high byte of a word, the one at the lower address (R54). -/
def highByte (w : Word) : Byte := w.extractLsb' 8 8

/-- The low byte of a word. -/
def lowByte (w : Word) : Byte := w.extractLsb' 0 8

/-- Decoding a byte string consumes exactly 2 bytes (R70) and returns the rest. -/
def decodeBytes : List Byte → Except DecodeError (Instr × List Byte)
  | hi :: lo :: rest => (decodeWord (wordOfBytes hi lo)).map fun i => (i, rest)
  | _ => .error .truncated

/-- The word of four nibbles, most significant first (30_encoding.md R71). -/
def wordOfNibbles (d1 d2 d3 d4 : BitVec 4) : Word := d1 ++ d2 ++ d3 ++ d4

/-- A word of format ADR: the group and addr (R74). -/
def encodeAddr (d1 : BitVec 4) (addr : Addr) : Word := d1 ++ addr

/-- A word of format XKK, and of format XOP with the sub-operation byte in the place of kk (R74). -/
def encodeXKk (d1 : BitVec 4) (x : Reg) (kk : Byte) : Word := d1 ++ BitVec.ofFin (w := 4) x ++ kk

/-- A word of format XYS or XYN: the last nibble is the sub-operation or n (R74). -/
def encodeXY (d1 : BitVec 4) (x y : Reg) (d4 : BitVec 4) : Word :=
  wordOfNibbles d1 (BitVec.ofFin (w := 4) x) (BitVec.ofFin (w := 4) y) d4

/-- The encoder: the word of an instruction (R75). -/
def encode : Instr → Word
  | .cls => 0x00E0
  | .ret => 0x00EE
  | .jp addr => encodeAddr 0x1 addr
  | .call addr => encodeAddr 0x2 addr
  | .seImm x kk => encodeXKk 0x3 x kk
  | .sneImm x kk => encodeXKk 0x4 x kk
  | .seReg x y => encodeXY 0x5 x y 0x0
  | .ldImm x kk => encodeXKk 0x6 x kk
  | .addImm x kk => encodeXKk 0x7 x kk
  | .ldReg x y => encodeXY 0x8 x y 0x0
  | .or x y => encodeXY 0x8 x y 0x1
  | .and x y => encodeXY 0x8 x y 0x2
  | .xor x y => encodeXY 0x8 x y 0x3
  | .addReg x y => encodeXY 0x8 x y 0x4
  | .sub x y => encodeXY 0x8 x y 0x5
  | .shr x y => encodeXY 0x8 x y 0x6
  | .subn x y => encodeXY 0x8 x y 0x7
  | .shl x y => encodeXY 0x8 x y 0xE
  | .sneReg x y => encodeXY 0x9 x y 0x0
  | .ldI addr => encodeAddr 0xA addr
  | .jpV0 addr => encodeAddr 0xB addr
  | .rnd x kk => encodeXKk 0xC x kk
  | .drw x y n => encodeXY 0xD x y (BitVec.ofFin (w := 4) n)
  | .skp x => encodeXKk 0xE x 0x9E
  | .sknp x => encodeXKk 0xE x 0xA1
  | .ldVxDt x => encodeXKk 0xF x 0x07
  | .ldVxK x => encodeXKk 0xF x 0x0A
  | .ldDtVx x => encodeXKk 0xF x 0x15
  | .ldStVx x => encodeXKk 0xF x 0x18
  | .addI x => encodeXKk 0xF x 0x1E
  | .ldF x => encodeXKk 0xF x 0x29
  | .ldB x => encodeXKk 0xF x 0x33
  | .ldMemVx x => encodeXKk 0xF x 0x55
  | .ldVxMem x => encodeXKk 0xF x 0x65

/-- One row of the opcode map: a word matches it when `w & mask = match` (R75). -/
structure OpcodeRow where
  mnemonic : String
  pattern : Word
  mask : Word
deriving DecidableEq, Repr

/-- The word matches the row (R75). -/
def OpcodeRow.covers (r : OpcodeRow) (w : Word) : Bool := w &&& r.mask == r.pattern

/-- The rows of formats FIX, ADR, XKK and XYN (R75). -/
def opcodeRowsPlain : List OpcodeRow :=
  [⟨"CLS", 0x00E0, 0xFFFF⟩, ⟨"RET", 0x00EE, 0xFFFF⟩, ⟨"JP", 0x1000, 0xF000⟩, ⟨"CALL", 0x2000, 0xF000⟩,
   ⟨"SE_IMM", 0x3000, 0xF000⟩, ⟨"SNE_IMM", 0x4000, 0xF000⟩, ⟨"LD_IMM", 0x6000, 0xF000⟩,
   ⟨"ADD_IMM", 0x7000, 0xF000⟩, ⟨"LD_I", 0xA000, 0xF000⟩, ⟨"JP_V0", 0xB000, 0xF000⟩, ⟨"RND", 0xC000, 0xF000⟩,
   ⟨"DRW", 0xD000, 0xF000⟩]

/-- The rows of format XYS (R75). -/
def opcodeRowsTwoReg : List OpcodeRow :=
  [⟨"SE_REG", 0x5000, 0xF00F⟩, ⟨"LD_REG", 0x8000, 0xF00F⟩, ⟨"OR", 0x8001, 0xF00F⟩, ⟨"AND", 0x8002, 0xF00F⟩,
   ⟨"XOR", 0x8003, 0xF00F⟩, ⟨"ADD_REG", 0x8004, 0xF00F⟩, ⟨"SUB", 0x8005, 0xF00F⟩, ⟨"SHR", 0x8006, 0xF00F⟩,
   ⟨"SUBN", 0x8007, 0xF00F⟩, ⟨"SHL", 0x800E, 0xF00F⟩, ⟨"SNE_REG", 0x9000, 0xF00F⟩]

/-- The rows of format XOP (R75). -/
def opcodeRowsSubOp : List OpcodeRow :=
  [⟨"SKP", 0xE09E, 0xF0FF⟩, ⟨"SKNP", 0xE0A1, 0xF0FF⟩, ⟨"LD_VX_DT", 0xF007, 0xF0FF⟩, ⟨"LD_VX_K", 0xF00A, 0xF0FF⟩,
   ⟨"LD_DT_VX", 0xF015, 0xF0FF⟩, ⟨"LD_ST_VX", 0xF018, 0xF0FF⟩, ⟨"ADD_I", 0xF01E, 0xF0FF⟩,
   ⟨"LD_F", 0xF029, 0xF0FF⟩, ⟨"LD_B", 0xF033, 0xF0FF⟩, ⟨"LD_MEM_VX", 0xF055, 0xF0FF⟩,
   ⟨"LD_VX_MEM", 0xF065, 0xF0FF⟩]

/-- The opcode map as data (R75; D3 asks for it in that form). The order does not matter (R79). -/
def opcodeTable : List OpcodeRow := opcodeRowsPlain ++ opcodeRowsTwoReg ++ opcodeRowsSubOp

/-- The instruction the decoder reads from a word given as a number whose bit 0 is the word's least significant bit:
its two bytes are laid out high byte first (20_memory.md R54). Bits from nbits up are 0. -/
def decodeTableWord (nbits w : Nat) : Option Instr :=
  let word : Word := BitVec.ofNat 16 (w % 2 ^ nbits)
  match decodeBytes [highByte word, lowByte word] with
  | .ok (i, _) => some i
  | .error _ => none

end Sys2Proof
end

