-- ==== Sys2Proof/Machine/State.lean ====
section
/-! DEFINITION. The machine's state (10_state.md R20), the fault record (60_exceptions.md R210), the reasons a
transaction has no next state, and the state after reset (10_state.md R37). -/

namespace Sys2Proof.Machine

/-- Memory (10_state.md R32) as a list of (address, byte) in one canonical form (`Memory.wf`, Machine/Ops.lean): what
an unlisted address reads as is `Memory.unlisted`, the reset contents. -/
abbrev Memory := List Host.Cell

/-- The framebuffer: 32 rows of 64 pixels, true when lit (10_state.md R30). -/
abbrev Framebuffer := Vector (Vector Bool 64) 32

/-- The seven faults (60_exceptions.md R210). -/
inductive FaultKind
  | illegalInstruction
  | outOfBounds
  | stackOverflow
  | stackUnderflow
  | keyIndexOutOfRange
  | halt
  | malformedImage
deriving DecidableEq, Repr

/-- The info of a fault record, by the kind that carries it (R210). -/
inductive FaultInfo
  | none
  | addr (a : Nat)
  | value (v : Byte)
  | len (n : Nat)
deriving DecidableEq, Repr

/-- The fault record (R210). Its code and its name are functions of the kind (`FaultKind.code`, `FaultKind.name`,
Machine/Ops.lean; log entry 12). -/
structure FaultRecord where
  kind : FaultKind
  /-- The address of the instruction; none for MalformedImage. -/
  ipc : Option Word
  /-- The fetched word; none for a fetch that faulted and for MalformedImage. -/
  word : Option Word
  info : FaultInfo
deriving DecidableEq, Repr

/-- The state record (10_state.md R20), and the model's own two fields `params` and `draws` (log entries 4 and 3). -/
structure State where
  /-- M, memory (R32). -/
  mem : Memory
  /-- V0 to VF (R21); `v[15]` is VF (R22). -/
  v : Vector Byte 16
  /-- I, the index register (R24). -/
  i : Word
  /-- PC, the program counter (R25); between transactions, the address of the next instruction. -/
  pc : Word
  /-- S, the call stack's entries (R27). -/
  stack : Vector Word 16
  /-- SP, the number of entries in use, 0 to 16 (R27). -/
  sp : Fin 17
  /-- DT, the delay timer (R29). -/
  dt : Byte
  /-- ST, the sound timer (R29). -/
  st : Byte
  /-- FB, the framebuffer (R30). -/
  fb : Framebuffer
  /-- K, the key state (R31). -/
  keys : Vector Bool 16
  /-- The fault record of a halted core (R34). -/
  fault : Option FaultRecord
  /-- Whether a step has run (R35). -/
  started : Bool
  /-- The model's own: HALT_SENTINEL and DRAW_ZERO_ROWS (00_scope.md R8; log entry 4). -/
  params : Config.Params
  /-- The model's own: how many RAND draws have been taken (42_alu.md R152; log entry 3). -/
  draws : Nat
deriving DecidableEq, Repr

/-- Why the machine has no next state although the request is a meaningful one. -/
inductive Fault
  /-- The core is halted by an earlier fault, whose record this carries: no transaction has a step then
  (60_exceptions.md R232). Raised by every transaction on a state whose `fault` is set. Safe: the spec says there is
  no step. -/
  | halted (r : FaultRecord)
deriving DecidableEq, Repr

/-- Why a request has no meaning. -/
inductive Refusal
  /-- An instruction without a meaning yet, by its mnemonic. No arm of exec raises it: every instruction is
  modelled. Safe. -/
  | notModelled (mnemonic : String)
  /-- `load` after the first step: "the model refuses it" (60_exceptions.md R227, D21). Raised by `load` alone. Safe. -/
  | loadAfterStart
  /-- `reset` of a core that exists: it "has no meaning in this spec" (70_reset_and_hazards.md R240, D28). Raised by
  the reset transaction alone. Safe. -/
  | resetOfRunningCore
deriving DecidableEq, Repr

/-- The outcome of a transaction. -/
abbrev StepResult := Host.Outcome State Fault Refusal

/-- The state after reset with the spec's default parameters (10_state.md R37, 00_scope.md R8). Memory lists nothing:
the reset contents are what unlisted addresses read as. -/
def State.reset : State :=
  { mem := []
    v := Config.zeroRegs.v
    i := Config.zeroRegs.i
    pc := 0x200
    stack := Config.zeroRegs.stack
    sp := 0
    dt := Config.zeroRegs.dt
    st := Config.zeroRegs.st
    fb := Vector.replicate 32 (Vector.replicate 64 false)
    keys := Vector.replicate 16 false
    fault := none
    started := false
    params := Config.defaultParams
    draws := 0 }

end Sys2Proof.Machine
end

