-- ==== Sys2Proof/Machine/Ops.lean ====
section
/-! DEFINITION. The named operations over memory, registers, the stack and the framebuffer; the fetch of an instruction
word; and taking a fault, which is one operation (60_exceptions.md R216). There is no return from a fault (R220). -/

namespace Sys2Proof.Machine

/-! ### Memory -/

/-- What an address that memory does not list reads as: the reset contents under the conventional FONT, the font in
0x000..0x04F and 0 elsewhere (10_state.md R33, R37; log entry 6). -/
def Memory.unlisted (a : Nat) : Byte :=
  if h : a < Config.fontSize then
    (Config.conventionalFont[a / 5]'(by simp only [Config.fontSize] at h; omega))[a % 5]'(Nat.mod_lt _ (by decide))
  else 0

/-- M[a] (00_scope.md R11). Every access checks its address first (20_memory.md R53). -/
def Memory.read : Memory → Nat → Byte
  | [], a => Memory.unlisted a
  | (k, b) :: m, a => if a = k then b else Memory.read m a

/-- Puts a cell at its place in the rising order of addresses. -/
def Memory.insert : Memory → Nat → Byte → Memory
  | [], a, v => [(a, v)]
  | (k, b) :: m, a, v => if a < k then (a, v) :: (k, b) :: m else (k, b) :: Memory.insert m a v

/-- M[a] <- v (00_scope.md R12), keeping the canonical form: the value an unlisted address reads as is not listed. -/
def Memory.write (m : Memory) (a : Nat) (v : Byte) : Memory :=
  if v = Memory.unlisted a then m.filter (fun c => c.1 != a)
  else Memory.insert (m.filter (fun c => c.1 != a)) a v

/-- The bytes written to consecutive addresses, in ascending order (20_memory.md R56). -/
def Memory.writeBytes : Memory → Nat → List Byte → Memory
  | m, _, [] => m
  | m, a, b :: bs => Memory.writeBytes (m.write a b) (a + 1) bs

/-- The canonical form: addresses strictly rising and below 4096, and no cell equal to what its address reads as
unlisted. -/
abbrev Memory.wf (m : Memory) : Prop :=
  (m.map Prod.fst).Pairwise (· < ·) ∧ ∀ c ∈ m, c.1 < Config.memSize ∧ c.2 ≠ Memory.unlisted c.1

/-- The lowest of the addresses base, …, base + count - 1 that is at or above 4096, which an OutOfBounds record reports
(20_memory.md R53, 60_exceptions.md R212); none when every one exists. -/
def firstOutOfBounds (base count : Nat) : Option Nat :=
  ((List.range count).map (base + ·)).find? (fun a => decide (Config.memSize ≤ a))

/-! ### Fetch -/

/-- The fetch (30_encoding.md R77): the word at PC and PC + 1, or the address that does not exist, PC's own first. -/
def fetch (s : State) : Except Nat Word :=
  match firstOutOfBounds s.pc.toNat 2 with
  | some a => .error a
  | none => .ok (wordOfBytes (s.mem.read s.pc.toNat) (s.mem.read (s.pc.toNat + 1)))

/-- The halt sentinel: the word 0xFFFF when HALT_SENTINEL is true (30_encoding.md R78). -/
def isHaltSentinel (p : Config.Params) (w : Word) : Bool := p.haltSentinel && w == 0xFFFF

/-! ### Faults -/

/-- The fault's code (60_exceptions.md R210). -/
def FaultKind.code : FaultKind → Nat
  | .illegalInstruction => 1
  | .outOfBounds => 2
  | .stackOverflow => 3
  | .stackUnderflow => 4
  | .keyIndexOutOfRange => 5
  | .halt => 6
  | .malformedImage => 7

/-- The fault's name (R210). -/
def FaultKind.name : FaultKind → String
  | .illegalInstruction => "IllegalInstruction"
  | .outOfBounds => "OutOfBounds"
  | .stackOverflow => "StackOverflow"
  | .stackUnderflow => "StackUnderflow"
  | .keyIndexOutOfRange => "KeyIndexOutOfRange"
  | .halt => "Halt"
  | .malformedImage => "MalformedImage"

/-- Fault entry (60_exceptions.md R216): the only write is `fault <- record`. -/
def State.enterFault (s : State) (r : FaultRecord) : State := { s with fault := some r }

/-- Taking a fault at an instruction: s is the state before the transaction, so its PC is ipc, and nothing the
transaction did is kept (00_scope.md R13, 60_exceptions.md R216). -/
def takeFault (s : State) (kind : FaultKind) (word : Option Word) (info : FaultInfo) : StepResult :=
  .next (s.enterFault { kind := kind, ipc := some s.pc, word := word, info := info })

/-- Taking a fault inside the execution of i: the record's word is i's own word (R210; log entry 8). -/
def faultAt (i : Instr) (s : State) (kind : FaultKind) (info : FaultInfo) : StepResult :=
  takeFault s kind (some (encode i)) info

/-! ### Registers and control -/

/-- What every instruction that raises nothing does before its effects: `started <- true` and PC <- PC + 2
(30_encoding.md R77, 10_state.md R25). The meanings apply it themselves, so that a fault finds the state before it
(log entry 7). -/
def State.advance (s : State) : State := { s with started := true, pc := s.pc + 2 }

/-- V[x] (00_scope.md R11). -/
def State.reg (s : State) (x : Reg) : Byte := s.v[x]

/-- V[x] <- b (00_scope.md R11). -/
def State.setReg (s : State) (x : Reg) (b : Byte) : State := { s with v := s.v.set x b }

/-- PC <- a. -/
def State.setPc (s : State) (a : Word) : State := { s with pc := a }

/-- I <- a. -/
def State.setI (s : State) (a : Word) : State := { s with i := a }

/-- DT <- b. -/
def State.setDt (s : State) (b : Byte) : State := { s with dt := b }

/-- ST <- b. -/
def State.setSt (s : State) (b : Byte) : State := { s with st := b }

/-- FB <- f. -/
def State.setFb (s : State) (f : Framebuffer) : State := { s with fb := f }

/-- Bytes stored from address a up (20_memory.md R56). -/
def State.storeBytes (s : State) (a : Nat) (bs : List Byte) : State := { s with mem := s.mem.writeBytes a bs }

/-- A skip: PC <- PC + 2 when the condition holds, on the already advanced PC (41_control_flow.md R120). -/
def State.skipIf (s : State) (c : Bool) : State := if c then s.setPc (s.pc + 2) else s

/-- A fresh draw of RAND (42_alu.md R152): the free value, and the state with the draw counted (log entry 3). -/
def State.draw (s : State) : Byte × State := (Config.freeByte s.draws, { s with draws := s.draws + 1 })

/-! ### The call stack -/

/-- The stack's entries and SP written together; push and pop use nothing else (10_state.md R28). -/
def State.setStack (s : State) (entries : Vector Word 16) (n : Fin 17) : State := { s with stack := entries, sp := n }

/-- push (10_state.md R28): none when 16 entries are in use. -/
def State.push (s : State) (a : Word) : Option State :=
  if h : s.sp.val < Config.stackDepth then
    some (s.setStack (s.stack.set s.sp.val a h) ⟨s.sp.val + 1, by simp only [Config.stackDepth] at h; omega⟩)
  else none

/-- pop (10_state.md R28): none when no entry is in use; the entry keeps its value (R27). -/
def State.pop (s : State) : Option (Word × State) :=
  if h : 0 < s.sp.val then
    some (s.stack[s.sp.val - 1]'(by have := s.sp.isLt; omega),
      s.setStack s.stack ⟨s.sp.val - 1, by have := s.sp.isLt; omega⟩)
  else none

/-! ### The framebuffer -/

/-- Every pixel unlit. -/
def Framebuffer.blank : Framebuffer := Vector.replicate 32 (Vector.replicate 64 false)

/-- FB at column x, row y; coordinates wrap (10_state.md R30, 40_display.md R100). -/
def Framebuffer.pixel (f : Framebuffer) (x y : Nat) : Bool :=
  (f[y % 32]'(Nat.mod_lt _ (by decide)))[x % 64]'(Nat.mod_lt _ (by decide))

/-- The pixel at column x, row y, inverted; coordinates wrap. -/
def Framebuffer.toggle (f : Framebuffer) (x y : Nat) : Framebuffer :=
  f.set (y % 32)
    ((f[y % 32]'(Nat.mod_lt _ (by decide))).set (x % 64) (!f.pixel x y) (Nat.mod_lt _ (by decide)))
    (Nat.mod_lt _ (by decide))

/-- Sprite column c of a row byte is its bit 7 - c (40_display.md R102). -/
def spriteBit (b : Byte) (c : Nat) : Bool := b.getLsbD (7 - c)

/-- One sprite bit (R102): a set bit inverts its pixel, and hits when the pixel was lit; the hit is sticky. -/
def blitBit (b : Byte) (px py : Nat) (acc : Framebuffer × Bool) (c : Nat) : Framebuffer × Bool :=
  if spriteBit b c then (acc.1.toggle (px + c) py, acc.2 || acc.1.pixel (px + c) py) else acc

/-- One sprite row: its 8 columns from the left (R102). -/
def blitRow (b : Byte) (px py : Nat) (acc : Framebuffer × Bool) : Framebuffer × Bool :=
  (List.range 8).foldl (blitBit b px py) acc

/-- The blit of n sprite rows read from memory at base, top row first, with the origin at column px, row py: the new
framebuffer, and whether a set bit fell on a lit pixel (R102). -/
def blit (m : Memory) (base n px py : Nat) (f : Framebuffer) : Framebuffer × Bool :=
  (List.range n).foldl (fun acc r => blitRow (m.read (base + r)) px (py + r) acc) (f, false)

end Sys2Proof.Machine
end

