-- ==== Sys2Proof/Machine/Operands.lean ====
section
/-! DEFINITION. The operand forms (30_encoding.md R74, R80): "register Vx" is `State.reg`, "immediate kk" is the
constructor's byte, and here stand "address addr", "address addr plus V0", "memory at I", the key a register names and
the digit a register holds. -/

namespace Sys2Proof.Machine

/-- Address addr, zero-extended to 16 bits (30_encoding.md R73). -/
def addrOperand (addr : Addr) : Word := addr.zeroExtend 16

/-- Address addr plus V0, modulo 2^16 and never reduced modulo 4096 (41_control_flow.md R128). -/
def offsetTarget (addr : Addr) (s : State) : Word := addrOperand addr + (s.reg 0).zeroExtend 16

/-- Memory at I: the address of its byte k (20_memory.md R52). It is not reduced (R53). -/
def memAtI (s : State) (k : Nat) : Nat := s.i.toNat + k

/-- The registers V0 to Vx, in register-index order (43_index_memory.md R174). -/
def regsUpTo (x : Reg) (s : State) : List Byte := s.v.toList.take (x.val + 1)

/-- V0 to Vx loaded from memory at I, the others kept (43_index_memory.md R175). -/
def State.loadRegs (s : State) (x : Reg) : State :=
  { s with v := Vector.ofFn fun k : Fin 16 => if k ≤ x then s.mem.read (memAtI s k.val) else s.v[k] }

/-- The decimal digits of a byte, hundreds first (43_index_memory.md R173). -/
def bcdDigits (b : Byte) : List Byte :=
  [BitVec.ofNat 8 (b.toNat / 100), BitVec.ofNat 8 (b.toNat / 10 % 10), BitVec.ofNat 8 (b.toNat % 10)]

/-- The address of the glyph of a digit: 5 times the whole register, not masked (43_index_memory.md R172). -/
def glyphAddr (b : Byte) : Word := BitVec.ofNat 16 (5 * b.toNat)

/-- The key a register names; none above 15 (44_timers_keys.md R196). -/
def keyOperand (b : Byte) : Option Key := if h : b.toNat < 16 then some ⟨b.toNat, h⟩ else none

/-- K[k] (00_scope.md R11). -/
def State.key (s : State) (k : Key) : Bool := s.keys[k]

/-- The key-wait's scan: the lowest pressed key (44_timers_keys.md R193). -/
def lowestPressed (s : State) : Option Key := (List.finRange 16).find? (fun k => s.key k)

end Sys2Proof.Machine
end

