-- ==== Sys2Proof/Machine/Flags.lean ====
section
/-! DEFINITION. What VF holds after an instruction that writes it as a flag (10_state.md R23), and the flag-last write
(R22). -/

namespace Sys2Proof.Machine

/-- A flag as VF's value: 1 or 0. -/
def flagByte (c : Bool) : Byte := if c then 1 else 0

/-- ADD Vx, Vy: the carry, a + b >= 256 (42_alu.md R147). -/
def carryOut (a b : Byte) : Bool := decide (256 ≤ a.toNat + b.toNat)

/-- SUB and SUBN: no borrow in a - b, a >= b (R148, R150). -/
def noBorrow (a b : Byte) : Bool := decide (b.toNat ≤ a.toNat)

/-- SHR: the bit shifted out, bit 0 (R149). -/
def shiftedOutRight (a : Byte) : Bool := a.getLsbD 0

/-- SHL: the bit shifted out, bit 7 (R151). -/
def shiftedOutLeft (a : Byte) : Bool := a.getLsbD 7

/-- The result to Vx and then the flag to VF, so that the flag wins when x is 0xF (10_state.md R22, 42_alu.md R140). -/
def State.writeWithFlag (s : State) (x : Reg) (result : Byte) (flag : Bool) : State :=
  (s.setReg x result).setReg vF (flagByte flag)

end Sys2Proof.Machine
end

