-- ==== Sys2Proof/Machine/Alu.lean ====
section
/-! DEFINITION. The ALU family (42_alu.md). Every operand is read from s, before any write (R140). -/

namespace Sys2Proof.Machine

/-- LD Vx, kk (42_alu.md R141). -/
def execLdImm (x : Reg) (kk : Byte) (s : State) : StepResult := .next (s.advance.setReg x kk)

/-- ADD Vx, kk (R142): no flag. -/
def execAddImm (x : Reg) (kk : Byte) (s : State) : StepResult := .next (s.advance.setReg x (s.reg x + kk))

/-- LD Vx, Vy (R143). -/
def execLdReg (x y : Reg) (s : State) : StepResult := .next (s.advance.setReg x (s.reg y))

/-- OR Vx, Vy (R144): no flag. -/
def execOr (x y : Reg) (s : State) : StepResult := .next (s.advance.setReg x (s.reg x ||| s.reg y))

/-- AND Vx, Vy (R145): no flag. -/
def execAnd (x y : Reg) (s : State) : StepResult := .next (s.advance.setReg x (s.reg x &&& s.reg y))

/-- XOR Vx, Vy (R146): no flag. -/
def execXor (x y : Reg) (s : State) : StepResult := .next (s.advance.setReg x (s.reg x ^^^ s.reg y))

/-- ADD Vx, Vy (R147). -/
def execAddReg (x y : Reg) (s : State) : StepResult :=
  .next (s.advance.writeWithFlag x (s.reg x + s.reg y) (carryOut (s.reg x) (s.reg y)))

/-- SUB Vx, Vy (R148). -/
def execSub (x y : Reg) (s : State) : StepResult :=
  .next (s.advance.writeWithFlag x (s.reg x - s.reg y) (noBorrow (s.reg x) (s.reg y)))

/-- SHR Vx (R149): Vx in place; the y field is ignored. -/
def execShr (x _y : Reg) (s : State) : StepResult :=
  .next (s.advance.writeWithFlag x (s.reg x >>> 1) (shiftedOutRight (s.reg x)))

/-- SUBN Vx, Vy (R150). -/
def execSubn (x y : Reg) (s : State) : StepResult :=
  .next (s.advance.writeWithFlag x (s.reg y - s.reg x) (noBorrow (s.reg y) (s.reg x)))

/-- SHL Vx (R151): Vx in place; the y field is ignored. -/
def execShl (x _y : Reg) (s : State) : StepResult :=
  .next (s.advance.writeWithFlag x (s.reg x <<< 1) (shiftedOutLeft (s.reg x)))

/-- RND Vx, kk (R152): a fresh draw, any byte, masked. -/
def execRnd (x : Reg) (kk : Byte) (s : State) : StepResult :=
  .next (s.draw.2.advance.setReg x (s.draw.1 &&& kk))

end Sys2Proof.Machine
end

