-- ==== Sys2Proof/Machine/ControlFlow.lean ====
section
/-! DEFINITION. The control-flow family (41_control_flow.md): RET, JP, CALL, the four skips, JP V0. -/

namespace Sys2Proof.Machine

/-- RET (41_control_flow.md R121). -/
def execRet (s : State) : StepResult :=
  match s.advance.pop with
  | none => faultAt .ret s .stackUnderflow .none
  | some (a, t) => .next (t.setPc a)

/-- JP addr (R122). -/
def execJp (addr : Addr) (s : State) : StepResult := .next (s.advance.setPc (addrOperand addr))

/-- CALL addr (R123): the pushed address is PC after the advance. -/
def execCall (addr : Addr) (s : State) : StepResult :=
  match s.advance.push s.advance.pc with
  | none => faultAt (.call addr) s .stackOverflow .none
  | some t => .next (t.setPc (addrOperand addr))

/-- SE Vx, kk (R124). -/
def execSeImm (x : Reg) (kk : Byte) (s : State) : StepResult := .next (s.advance.skipIf (s.reg x == kk))

/-- SNE Vx, kk (R125). -/
def execSneImm (x : Reg) (kk : Byte) (s : State) : StepResult := .next (s.advance.skipIf (s.reg x != kk))

/-- SE Vx, Vy (R126). -/
def execSeReg (x y : Reg) (s : State) : StepResult := .next (s.advance.skipIf (s.reg x == s.reg y))

/-- SNE Vx, Vy (R127). -/
def execSneReg (x y : Reg) (s : State) : StepResult := .next (s.advance.skipIf (s.reg x != s.reg y))

/-- JP V0, addr (R128). -/
def execJpV0 (addr : Addr) (s : State) : StepResult := .next (s.advance.setPc (offsetTarget addr s))

end Sys2Proof.Machine
end

