-- ==== Sys2Proof/Machine/Display.lean ====
section
/-! DEFINITION. The display family (40_display.md): CLS and DRW. -/

namespace Sys2Proof.Machine

/-- CLS (40_display.md R101). -/
def execCls (s : State) : StepResult := .next (s.advance.setFb Framebuffer.blank)

/-- DRW Vx, Vy, n (40_display.md R102): the origin and I are read before VF is written (R103); n = 0 is by
DRAW_ZERO_ROWS (R104); every row address is checked before any write. -/
def execDrw (x y : Reg) (n : Fin 16) (s : State) : StepResult :=
  if n = 0 ∧ s.params.drawZeroRows = .fault then faultAt (.drw x y n) s .illegalInstruction .none
  else match firstOutOfBounds (memAtI s 0) n.val with
    | some a => faultAt (.drw x y n) s .outOfBounds (.addr a)
    | none =>
      let drawn := blit s.mem (memAtI s 0) n.val (s.reg x).toNat (s.reg y).toNat s.fb
      .next ((s.advance.setFb drawn.1).setReg vF (flagByte drawn.2))

end Sys2Proof.Machine
end

