-- ==== Sys2Proof/Machine/IndexMemory.lean ====
section
/-! DEFINITION. The index register and memory family (43_index_memory.md). LD B, LD [I] and LD Vx, [I] leave I unchanged
(R176) and check every address before any write (20_memory.md R53). -/

namespace Sys2Proof.Machine

/-- LD I, addr (43_index_memory.md R170). -/
def execLdI (addr : Addr) (s : State) : StepResult := .next (s.advance.setI (addrOperand addr))

/-- ADD I, Vx (R171): modulo 65536, no flag. -/
def execAddI (x : Reg) (s : State) : StepResult := .next (s.advance.setI (s.i + (s.reg x).zeroExtend 16))

/-- LD F, Vx (R172). -/
def execLdF (x : Reg) (s : State) : StepResult := .next (s.advance.setI (glyphAddr (s.reg x)))

/-- LD B, Vx (R173). -/
def execLdB (x : Reg) (s : State) : StepResult :=
  match firstOutOfBounds (memAtI s 0) 3 with
  | some a => faultAt (.ldB x) s .outOfBounds (.addr a)
  | none => .next (s.advance.storeBytes (memAtI s 0) (bcdDigits (s.reg x)))

/-- LD [I], Vx (R174). -/
def execLdMemVx (x : Reg) (s : State) : StepResult :=
  match firstOutOfBounds (memAtI s 0) (x.val + 1) with
  | some a => faultAt (.ldMemVx x) s .outOfBounds (.addr a)
  | none => .next (s.advance.storeBytes (memAtI s 0) (regsUpTo x s))

/-- LD Vx, [I] (R175). -/
def execLdVxMem (x : Reg) (s : State) : StepResult :=
  match firstOutOfBounds (memAtI s 0) (x.val + 1) with
  | some a => faultAt (.ldVxMem x) s .outOfBounds (.addr a)
  | none => .next (s.advance.loadRegs x)

end Sys2Proof.Machine
end

