-- ==== Sys2Proof/Machine/TimersKeys.lean ====
section
/-! DEFINITION. The timer and key family (44_timers_keys.md). -/

namespace Sys2Proof.Machine

/-- SKP Vx (44_timers_keys.md R190). -/
def execSkp (x : Reg) (s : State) : StepResult :=
  match keyOperand (s.reg x) with
  | none => faultAt (.skp x) s .keyIndexOutOfRange (.value (s.reg x))
  | some k => .next (s.advance.skipIf (s.key k))

/-- SKNP Vx (R191). -/
def execSknp (x : Reg) (s : State) : StepResult :=
  match keyOperand (s.reg x) with
  | none => faultAt (.sknp x) s .keyIndexOutOfRange (.value (s.reg x))
  | some k => .next (s.advance.skipIf (!s.key k))

/-- LD Vx, DT (R192). -/
def execLdVxDt (x : Reg) (s : State) : StepResult := .next (s.advance.setReg x s.dt)

/-- LD Vx, K (R193): with no key pressed, PC goes back to the instruction; it is not a suspension (R197). -/
def execLdVxK (x : Reg) (s : State) : StepResult :=
  match lowestPressed s with
  | none => .next (s.advance.setPc (s.advance.pc - 2))
  | some k => .next (s.advance.setReg x (BitVec.ofNat 8 k.val))

/-- LD DT, Vx (R194). -/
def execLdDtVx (x : Reg) (s : State) : StepResult := .next (s.advance.setDt (s.reg x))

/-- LD ST, Vx (R195). -/
def execLdStVx (x : Reg) (s : State) : StepResult := .next (s.advance.setSt (s.reg x))

end Sys2Proof.Machine
end

