-- ==== Sys2Proof/Machine/Step.lean ====
section
/-! DEFINITION. The step transaction (30_encoding.md R77, 60_exceptions.md R228), and where an instruction is placed so
that the next step runs it. -/

namespace Sys2Proof.Machine

/-- One step (30_encoding.md R77): a halted core has none (60_exceptions.md R232); then fetch, the halt sentinel,
decode, execute, in the order of 60_exceptions.md R219. -/
def step (s : State) : Host.Outcome State Fault Refusal :=
  match s.fault with
  | some r => .fault (.halted r)
  | none =>
    match fetch s with
    | .error a => takeFault s .outOfBounds none (.addr a)
    | .ok w =>
      if isHaltSentinel s.params w then takeFault s .halt (some w) .none
      else match decodeWord w with
        | .error _ => takeFault s .illegalInstruction (some w) .none
        | .ok i => exec i s

/-- The word whose number is w (bits from nbits up are 0), its high byte at PC and its low byte at PC + 1
(20_memory.md R54), where the next step fetches. It stands for the load of a program (log entry 13); where PC + 1 is
not in memory there is nowhere to place it, and nothing changes. -/
def State.withFetchWord (s : State) (nbits w : Nat) : State :=
  let word : Word := BitVec.ofNat 16 (w % 2 ^ nbits)
  if s.pc.toNat + 1 < Config.memSize then s.storeBytes s.pc.toNat [highByte word, lowByte word] else s

end Sys2Proof.Machine
end

