-- ==== Sys2Proof/Machine/HostInterface.lean ====
section
/-! DEFINITION. The host interface (60_exceptions.md R226 to R233): the other transactions, the outputs, and a run as a
list of transactions. -/

namespace Sys2Proof.Machine

/-- Memory after reset for any FONT: zero except the font region (10_state.md R37, 00_scope.md R8). -/
def Memory.ofFont (font : Config.Font) : Memory :=
  Memory.writeBytes [] 0 (font.toList.flatMap Vector.toList)

/-- The reset transaction for any values of the parameters (70_reset_and_hazards.md R240, 00_scope.md R8). -/
def State.resetWith (font : Config.Font) (regs : Config.ResetRegs) (params : Config.Params) : State :=
  { State.reset with
    mem := Memory.ofFont font
    v := regs.v
    i := regs.i
    dt := regs.dt
    st := regs.st
    stack := regs.stack
    params := params }

/-- A timer counts down by 1 and stops at 0 (60_exceptions.md R223). -/
def countDown (b : Byte) : Byte := if b = 0 then 0 else b - 1

/-- The tick transaction (60_exceptions.md R223). -/
def tick (s : State) : StepResult :=
  match s.fault with
  | some r => .fault (.halted r)
  | none => .next { s with dt := countDown s.dt, st := countDown s.st }

/-- The set_key transaction (60_exceptions.md R229). -/
def setKey (k : Key) (pressed : Bool) (s : State) : StepResult :=
  match s.fault with
  | some r => .fault (.halted r)
  | none => .next { s with keys := s.keys.set k pressed }

/-- The load transaction (60_exceptions.md R227): only before the first step; an image that does not fit is
MalformedImage, and writes nothing (R218). -/
def load (image : List Byte) (s : State) : StepResult :=
  match s.fault with
  | some r => .fault (.halted r)
  | none =>
    if s.started then .refused .loadAfterStart
    else if imageFits image then .next (s.storeBytes Config.progStart image)
    else .next (s.enterFault { kind := .malformedImage, ipc := none, word := none, info := .len image.length })

/-- A reset of a core that exists has no meaning (70_reset_and_hazards.md R240; log entry 11). -/
def resetAgain (s : State) : StepResult :=
  match s.fault with
  | some r => .fault (.halted r)
  | none => .refused .resetOfRunningCore

/-- The transactions (60_exceptions.md R226). -/
inductive Transaction
  | reset
  | load (image : List Byte)
  | step
  | tick
  | setKey (k : Key) (pressed : Bool)
deriving DecidableEq, Repr

/-- One transaction on a core that exists (60_exceptions.md R226). -/
def transact (t : Transaction) (s : State) : StepResult :=
  match t with
  | .reset => resetAgain s
  | .load image => load image s
  | .step => step s
  | .tick => tick s
  | .setKey k pressed => setKey k pressed s

/-- A run: transactions one after another, in the order the host chooses (60_exceptions.md R231), stopping at the first
that has no next state. -/
def runAll : List Transaction → State → StepResult
  | [], s => .next s
  | t :: ts, s =>
    match transact t s with
    | .next s' => runAll ts s'
    | .fault r => .fault r
    | .refused r => .refused r

/-- The framebuffer snapshot (60_exceptions.md R230). -/
def outFramebuffer (s : State) : Framebuffer := s.fb

/-- The tone gate, ST > 0 (60_exceptions.md R224). -/
def outToneGate (s : State) : Bool := decide (0 < s.st.toNat)

/-- The fault field (60_exceptions.md R230). -/
def outFault (s : State) : Option FaultRecord := s.fault

end Sys2Proof.Machine
end

