-- ==== Sys2Proof/Safety.lean ====
section
/-! DEFINITION. The terms claims are written in: what a fault record must look like, the two invariants, what a
transaction leaves unchanged, what a sprite is, and the end of a run (70_reset_and_hazards.md R253). -/

namespace Sys2Proof.Machine

/-- What the record r of a halted state s must be, by its kind (60_exceptions.md R210): which of ipc, word and info are
present, that ipc is the PC the state still holds (R216), and the condition that raised it. -/
def RecordFits (r : FaultRecord) (s : State) : Prop :=
  match r.kind with
  | .illegalInstruction => r.ipc = some s.pc ∧ r.word.isSome ∧ r.info = .none
  | .outOfBounds => r.ipc = some s.pc ∧ ∃ a, r.info = .addr a ∧ Config.memSize ≤ a
  | .stackOverflow => r.ipc = some s.pc ∧ r.word.isSome ∧ r.info = .none ∧ s.sp = 16
  | .stackUnderflow => r.ipc = some s.pc ∧ r.word.isSome ∧ r.info = .none ∧ s.sp = 0
  | .keyIndexOutOfRange => r.ipc = some s.pc ∧ r.word.isSome ∧ ∃ b, r.info = .value b ∧ 15 < b.toNat
  | .halt => r.ipc = some s.pc ∧ r.word = some 0xFFFF ∧ r.info = .none ∧ s.params.haltSentinel = true
  | .malformedImage => r.ipc = none ∧ r.word = none ∧ s.started = false ∧ ∃ n, r.info = .len n ∧ 3584 < n

/-- The machine's invariant: memory is in its canonical form, within the 4096 addresses that exist, and the record of a
halted core fits the state it is held in. -/
def Inv (s : State) : Prop := s.mem.wf ∧ ∀ r, s.fault = some r → RecordFits r s

/-- No reachable PC is near 2^16 (10_state.md R26): PC is at most 0xFFF + 0xFF (41_control_flow.md R128), and a
return address in use is at most 0x1000, the address after the last word of memory. -/
def PcBounded (s : State) : Prop :=
  s.pc.toNat ≤ 0x10FE ∧ ∀ j : Fin 16, j.val < s.sp.val → (s.stack[j]).toNat ≤ 0x1000

/-- The parts of the state an instruction may leave alone. PC and `started` are not among them: every instruction that
raises nothing writes both. -/
inductive Part
  | memory
  | regs
  | index
  | stack
  | delayTimer
  | soundTimer
  | display
  | keys
  | fault
  | params
  | draws
deriving DecidableEq, Repr

/-- The part is as before; for memory, every byte of it. -/
def Unchanged (p : Part) (s t : State) : Prop :=
  match p with
  | .memory => ∀ a, t.mem.read a = s.mem.read a
  | .regs => ∀ r, t.reg r = s.reg r
  | .index => t.i = s.i
  | .stack => t.stack = s.stack ∧ t.sp = s.sp
  | .delayTimer => t.dt = s.dt
  | .soundTimer => t.st = s.st
  | .display => t.fb = s.fb
  | .keys => t.keys = s.keys
  | .fault => t.fault = s.fault
  | .params => t.params = s.params
  | .draws => t.draws = s.draws

/-- Every part but those listed is as before. -/
def KeepsAllBut (ps : List Part) (s t : State) : Prop := ∀ p, p ∉ ps → Unchanged p s t

/-- Every general register but those listed is as before. -/
def KeepsRegsBut (xs : List Reg) (s t : State) : Prop := ∀ r, r ∉ xs → t.reg r = s.reg r

/-- The next instruction is at address a, and the core has started (30_encoding.md R77). -/
def ContinuesAt (a : Word) (t : State) : Prop := t.pc = a ∧ t.started = true

/-- The two states differ at most in stack entries that are not in use (10_state.md R27). -/
def SameButUnusedStack (s s' : State) : Prop :=
  s' = { s with stack := s'.stack } ∧ ∀ j : Fin 16, j.val < s.sp.val → s'.stack[j] = s.stack[j]

/-- Whether a sprite of n rows at base in memory, with its origin at column ox, row oy, has a set bit on the pixel at
column px, row py of the screen: the pixel is 8 columns and n rows from the origin at most, counted with wrap
(40_display.md R100, R102), and column c of row r is bit 7 - c of the byte at base + r. -/
def spriteCovers (m : Memory) (base n ox oy px py : Nat) : Bool :=
  let c := (px + 64 - ox % 64) % 64
  let r := (py + 32 - oy % 32) % 32
  decide (c < 8) && decide (r < n) && (m.read (base + r)).getLsbD (7 - c)

/-- The instruction the next step executes, where there is one: the fetch succeeds and the word decodes. -/
def nextInstr (s : State) : Option Instr :=
  match fetch s with
  | .error _ => none
  | .ok w => (decodeWord w).toOption

/-- The end of a run, Faulted (R253 a). -/
def Faulted (s : State) : Prop := s.fault ≠ none

/-- The end of a run, Parked (R253 b): the word at PC is a jump to itself. -/
def Parked (s : State) : Prop := s.fault = none ∧ ∃ addr, nextInstr s = some (.jp addr) ∧ addrOperand addr = s.pc

/-- The end of a run, Waiting (R253 c): the word at PC is FX0A and no key is pressed. -/
def Waiting (s : State) : Prop := s.fault = none ∧ (∃ x, nextInstr s = some (.ldVxK x)) ∧ ∀ k, s.key k = false

/-- A safe run: the transactions are all taken, and none raises a fault. -/
def SafeRun (ts : List Transaction) (s : State) : Prop := ∃ t, runAll ts s = .next t ∧ t.fault = none

end Sys2Proof.Machine
end

