-- ==== Sys2Proof/Certificates/Slice0/Obligations.lean ====
section
/-! DEFINITION. The statements for the provers. Each docstring names the rule or rules of spec/ it formalises; a clause
that rests on a choice of the model names its log entry. -/

open Sys2Proof Sys2Proof.Machine

/-! ### Reset -/

/-- 10_state.md R37: every field after reset, with the spec's default parameters. Memory outside the font and PC are the
source's; the font's bytes are the spec's decision D18 (log entry 6), every other value its decision D17 (log entry 5),
fault and started D6 and D21. -/
def Obligations.ResetLeavesTheTabledValues : Prop :=
  (∀ a, a < 0x50 → ∃ (d : Fin 16) (r : Fin 5), a = 5 * d.val + r.val ∧
    State.reset.mem.read a = (Config.conventionalFont[d])[r]) ∧
  (∀ a, 0x50 ≤ a → a < 4096 → State.reset.mem.read a = 0) ∧
  State.reset.pc = 0x200 ∧ (∀ x, State.reset.reg x = 0) ∧ State.reset.i = 0 ∧ State.reset.sp = 0 ∧
  (∀ j : Fin 16, State.reset.stack[j] = 0) ∧ State.reset.dt = 0 ∧ State.reset.st = 0 ∧
  (∀ x y, State.reset.fb.pixel x y = false) ∧ (∀ k, State.reset.key k = false) ∧
  State.reset.fault = none ∧ State.reset.started = false

/-- 00_scope.md R8, 10_state.md R37, 70_reset_and_hazards.md R245: reset for every value of FONT, RESET_REGS and the two
parameters of a step; State.reset is that at the defaults. The values that are no parameter are the spec's decisions
D6, D17 and D21. -/
def Obligations.ResetTakesEveryParameter : Prop :=
  State.resetWith Config.conventionalFont Config.zeroRegs Config.defaultParams = State.reset ∧
  ∀ (font : Config.Font) (regs : Config.ResetRegs) (params : Config.Params) (s : State),
    s = State.resetWith font regs params →
    (∀ (d : Fin 16) (r : Fin 5), s.mem.read (5 * d.val + r.val) = (font[d])[r]) ∧
    (∀ a, 0x50 ≤ a → s.mem.read a = 0) ∧
    s.v = regs.v ∧ s.i = regs.i ∧ s.dt = regs.dt ∧ s.st = regs.st ∧ s.stack = regs.stack ∧ s.params = params ∧
    s.pc = 0x200 ∧ s.sp = 0 ∧ s.fault = none ∧ s.started = false ∧
    (∀ x y, s.fb.pixel x y = false) ∧ (∀ k, s.key k = false)

/-- The two invariants hold after reset, for every value of the parameters. -/
def Obligations.ResetMeetsTheInvariants : Prop :=
  Inv State.reset ∧ PcBounded State.reset ∧
  ∀ font regs params, Inv (State.resetWith font regs params) ∧ PcBounded (State.resetWith font regs params)

/-! ### Encoding -/

/-- 30_encoding.md R75: words of each format, written from their patterns, decode to the instruction they stand for. The
patterns are the spec's decision D3 (log entry 9). -/
def Obligations.PatternWordsDecode : Prop :=
  decodeWord 0x00E0 = .ok .cls ∧ decodeWord 0x00EE = .ok .ret ∧ decodeWord 0x1FA7 = .ok (.jp 0xFA7) ∧
  decodeWord 0x3342 = .ok (.seImm 3 0x42) ∧ decodeWord 0x8BA4 = .ok (.addReg 0xB 0xA) ∧
  decodeWord 0xA300 = .ok (.ldI 0x300) ∧ decodeWord 0xDAB5 = .ok (.drw 0xA 0xB 5) ∧
  decodeWord 0xE19E = .ok (.skp 1) ∧ decodeWord 0xF333 = .ok (.ldB 3) ∧
  decodeWord 0x5121 = .error (.illegal 0x5121) ∧ decodeWord 0x0123 = .error (.illegal 0x0123)

/-- Every instruction, with every operand value, is what its own word decodes to (30_encoding.md R72, R75). -/
def Obligations.DecodeOfEncodeIsTheInstruction : Prop := ∀ i : Instr, decodeWord (encode i) = .ok i

/-- Every word that decodes is the word of the instruction it decodes to: no bit of a word is dropped. -/
def Obligations.EncodeOfDecodeIsTheWord : Prop := ∀ (w : Word) (i : Instr), decodeWord w = .ok i → encode i = w

/-- 30_encoding.md R75: the decoder reads an instruction of a row exactly from the words that match that row of the
opcode table (the spec's decision D3, log entry 9). -/
def Obligations.DecoderAgreesWithTheOpcodeTable : Prop :=
  ∀ (w : Word) (m : String),
    (∃ i, decodeWord w = .ok i ∧ i.mnemonic = m) ↔
      ∃ r ∈ opcodeTable, r.mnemonic = m ∧ w &&& r.mask = r.pattern

/-- 30_encoding.md R79, derived there from R75: no two rows of the opcode table match the same word, and 0xFFFF matches
none. -/
def Obligations.NoTwoRowsMatchOneWord : Prop :=
  (∀ r ∈ opcodeTable, ∀ r' ∈ opcodeTable, ∀ w : Word, r.covers w = true → r'.covers w = true → r = r') ∧
  ∀ r ∈ opcodeTable, r.covers 0xFFFF = false

/-- 30_encoding.md R76: the words that do not decode are exactly those the rule lists, each refused with the word. The
list is the spec's decision D4 over D3 (log entry 9). -/
def Obligations.IllegalWordsAreTheListedOnes : Prop :=
  ∀ w : Word, decodeWord w = .error (.illegal w) ↔
    (w.toNat / 4096 = 0x0 ∧ w.toNat ≠ 0x00E0 ∧ w.toNat ≠ 0x00EE) ∨
    ((w.toNat / 4096 = 0x5 ∨ w.toNat / 4096 = 0x9) ∧ w.toNat % 16 ≠ 0) ∨
    (w.toNat / 4096 = 0x8 ∧ w.toNat % 16 ∈ [0x8, 0x9, 0xA, 0xB, 0xC, 0xD, 0xF]) ∨
    (w.toNat / 4096 = 0xE ∧ w.toNat % 256 ∉ [0x9E, 0xA1]) ∨
    (w.toNat / 4096 = 0xF ∧ w.toNat % 256 ∉ [0x07, 0x0A, 0x15, 0x18, 0x1E, 0x29, 0x33, 0x55, 0x65])

/-! ### The step and its faults -/

/-- 30_encoding.md R77: when the two bytes at PC exist and, the byte at PC high, decode to i, the step is exec of i at
that state. exec itself moves PC past the word (log entry 7), so step adds nothing around it. The byte order is the
spec's decision D2 (log entry 9). -/
def Obligations.StepRunsTheDecodedInstruction : Prop :=
  ∀ (s : State) (i : Instr), s.fault = none → s.pc.toNat + 1 < 4096 →
    decodeWord (wordOfBytes (s.mem.read s.pc.toNat) (s.mem.read (s.pc.toNat + 1))) = .ok i →
    step s = exec i s

/-- 60_exceptions.md R212, 30_encoding.md R77: a fetch at PC at or above 4095 is OutOfBounds, with PC itself as the
address, or PC + 1 when only that one does not exist; no word is recorded (the spec's decisions D6 and D11). -/
def Obligations.FetchOutsideMemoryFaults : Prop :=
  ∀ s : State, s.fault = none →
    (4096 ≤ s.pc.toNat → step s = .next { s with fault := some ⟨.outOfBounds, some s.pc, none, .addr s.pc.toNat⟩ }) ∧
    (s.pc.toNat = 4095 → step s = .next { s with fault := some ⟨.outOfBounds, some s.pc, none, .addr 4096⟩ })

/-- 60_exceptions.md R211, 30_encoding.md R78: a fetched word that decodes to nothing raises IllegalInstruction with
that word, but for 0xFFFF under HALT_SENTINEL, which raises Halt (decision D5); nothing else changes (decision D6). -/
def Obligations.UndecodedWordFaults : Prop :=
  ∀ (s : State) (w : Word), s.fault = none → s.pc.toNat + 1 < 4096 →
    w = wordOfBytes (s.mem.read s.pc.toNat) (s.mem.read (s.pc.toNat + 1)) →
    (w = 0xFFFF → s.params.haltSentinel = true →
      step s = .next { s with fault := some ⟨.halt, some s.pc, some 0xFFFF, .none⟩ }) ∧
    (decodeWord w = .error (.illegal w) → (w ≠ 0xFFFF ∨ s.params.haltSentinel = false) →
      step s = .next { s with fault := some ⟨.illegalInstruction, some s.pc, some w, .none⟩ })

/-- 60_exceptions.md R232 (the spec's decision D22): once a fault is set, no transaction of any kind has a step. That
the model ends it in `Fault.halted` is log entry 1, and that reset is among them log entry 11. -/
def Obligations.HaltedCoreTakesNoTransaction : Prop :=
  ∀ (s : State) (r : FaultRecord) (x : Transaction), s.fault = some r → transact x s = .fault (.halted r)

/-- 60_exceptions.md R216 (the spec's decision D6): a step that raises a fault changes the fault field and nothing else,
and its record holds the PC of the instruction. That `started` is among what does not change is log entry 2. -/
def Obligations.FaultsArePrecise : Prop :=
  ∀ (s t : State) (r : FaultRecord), step s = .next t → t.fault = some r →
    s.fault = none ∧ t = { s with fault := some r } ∧ r.ipc = some s.pc

/-- 60_exceptions.md R210 to R219: what a step that ends with a record of each kind was executing, and on what condition
(the spec's decisions D5, D11, D13 and D14 are among the conditions). -/
def Obligations.FaultsHaveTheTabledCauses : Prop :=
  ∀ (s t : State) (r : FaultRecord), step s = .next t → t.fault = some r →
    match r.kind with
    | .illegalInstruction => ∃ w, fetch s = .ok w ∧ r.word = some w ∧
        (nextInstr s = none ∨ s.params.drawZeroRows = .fault ∧ ∃ x y, nextInstr s = some (.drw x y 0))
    | .outOfBounds => ∃ a, r.info = .addr a ∧ 4096 ≤ a ∧
        ((4095 ≤ s.pc.toNat ∧ r.word = none ∧ a = max s.pc.toNat 4096) ∨
          ∃ i, nextInstr s = some i ∧ r.word = some (encode i) ∧ a = max s.i.toNat 4096 ∧
            ((∃ x y n, i = .drw x y n ∧ 4096 < s.i.toNat + n.val) ∨
              (∃ x, i = .ldB x ∧ 4096 < s.i.toNat + 3) ∨
              ∃ x, (i = .ldMemVx x ∨ i = .ldVxMem x) ∧ 4096 < s.i.toNat + x.val + 1))
    | .stackOverflow => s.sp = 16 ∧ ∃ addr, nextInstr s = some (.call addr)
    | .stackUnderflow => s.sp = 0 ∧ nextInstr s = some .ret
    | .keyIndexOutOfRange => ∃ x, (nextInstr s = some (.skp x) ∨ nextInstr s = some (.sknp x)) ∧
        15 < (s.reg x).toNat ∧ r.info = .value (s.reg x)
    | .halt => fetch s = .ok 0xFFFF ∧ s.params.haltSentinel = true
    | .malformedImage => False

/-- Every step keeps the invariant: memory stays canonical and within the 4096 addresses, and a record fits its state
(60_exceptions.md R210, R216; 20_memory.md R53). -/
def Obligations.StepKeepsTheInvariant : Prop := ∀ s t : State, Inv s → step s = .next t → Inv t

/-- Every run, any list of transactions in any order, keeps the invariant (60_exceptions.md R231). -/
def Obligations.EveryRunKeepsTheInvariant : Prop :=
  ∀ (xs : List Transaction) (s t : State), Inv s → runAll xs s = .next t → Inv t

/-- 10_state.md R26: no reachable PC makes it wrap. Every step keeps PC at most 0x10FE and the return addresses in use
at most 0x1000, and the PC of a step that fetches an instruction is below 4095, so that neither the advance nor a skip
reaches 2^16. -/
def Obligations.StepKeepsPcFromWrapping : Prop :=
  ∀ s t : State, PcBounded s → step s = .next t →
    PcBounded t ∧ ∀ i, nextInstr s = some i → s.pc.toNat + 4 < 65536

/-- 10_state.md R35 (the spec's decision D21): a step that raises no fault leaves the core started. For a step that
raises one see log entry 2. -/
def Obligations.CompletedStepStartsTheCore : Prop :=
  ∀ s t : State, step s = .next t → t.fault = none → t.started = true

/-! ### What only some instructions write -/

/-- 40_display.md R105: CLS and DRW are the only instructions after which the framebuffer can differ. -/
def Obligations.OnlyClsAndDrwWriteTheFramebuffer : Prop :=
  ∀ s t : State, step s = .next t → t.fb ≠ s.fb →
    nextInstr s = some .cls ∨ ∃ x y n, nextInstr s = some (.drw x y n)

/-- 10_state.md R24: I is written by LD I, ADD I and LD F only (that FX55, FX65 and FX33 keep it is decision D15). -/
def Obligations.OnlyThreeInstructionsWriteI : Prop :=
  ∀ s t : State, step s = .next t → t.i ≠ s.i →
    (∃ addr, nextInstr s = some (.ldI addr)) ∨ (∃ x, nextInstr s = some (.addI x)) ∨ ∃ x, nextInstr s = some (.ldF x)

/-- 20_memory.md R52: of the instructions, LD B writes I, I+1, I+2 and LD [I], Vx writes I to I+x, and no other byte of
memory changes in a step. -/
def Obligations.OnlyStoresWriteMemory : Prop :=
  ∀ (s t : State) (a : Nat), step s = .next t → t.mem.read a ≠ s.mem.read a →
    (∃ x, nextInstr s = some (.ldB x) ∧ memAtI s 0 ≤ a ∧ a ≤ memAtI s 2) ∨
    ∃ x, nextInstr s = some (.ldMemVx x) ∧ memAtI s 0 ≤ a ∧ a ≤ memAtI s x.val

/-- 10_state.md R27, R28: no instruction but CALL and RET touches the stack, and they change SP by 1; RET writes no
entry. -/
def Obligations.OnlyCallAndRetTouchTheStack : Prop :=
  ∀ s t : State, step s = .next t → (t.sp ≠ s.sp ∨ t.stack ≠ s.stack) →
    ((∃ addr, nextInstr s = some (.call addr)) ∧ t.sp.val = s.sp.val + 1) ∨
    (nextInstr s = some .ret ∧ t.sp.val + 1 = s.sp.val ∧ t.stack = s.stack)

/-- 10_state.md R29, R31: in a step DT is written by LD DT, Vx alone and ST by LD ST, Vx alone, and no instruction
writes the key state; nor the model's own parameters (log entry 4). -/
def Obligations.OnlyTimerLoadsWriteTimersAndNoneKeys : Prop :=
  ∀ s t : State, step s = .next t →
    (t.dt ≠ s.dt → ∃ x, nextInstr s = some (.ldDtVx x) ∧ t.dt = s.reg x) ∧
    (t.st ≠ s.st → ∃ x, nextInstr s = some (.ldStVx x) ∧ t.st = s.reg x) ∧
    t.keys = s.keys ∧ t.params = s.params

/-- 10_state.md R23: VF changes only by the six instructions that write it as a flag, or where the destination field
names register 0xF. -/
def Obligations.OnlyFlagInstructionsWriteVfUnnamed : Prop :=
  ∀ s t : State, step s = .next t → t.reg vF ≠ s.reg vF →
    ∃ i, nextInstr s = some i ∧
      ((∃ x y, i ∈ [.addReg x y, .sub x y, .shr x y, .subn x y, .shl x y]) ∨ (∃ x y n, i = .drw x y n) ∨
        (∃ kk, i ∈ [.ldImm vF kk, .addImm vF kk, .rnd vF kk]) ∨
        (∃ y, i ∈ [.ldReg vF y, .or vF y, .and vF y, .xor vF y]) ∨ i ∈ [.ldVxDt vF, .ldVxK vF, .ldVxMem vF])

/-- 10_state.md R27 (the spec's decision D23): entries at index SP and above are observed by no instruction. Two states
that differ at most there step alike: both stop alike, or go on to states that again differ at most there. -/
def Obligations.UnusedStackEntriesAreNeverObserved : Prop :=
  ∀ s s' : State, SameButUnusedStack s s' →
    (∀ t, step s = .next t → ∃ t', step s' = .next t' ∧ SameButUnusedStack t t') ∧
    ∀ r, step s = .fault r → step s' = .fault r

/-! ### The ALU family -/

/-- 42_alu.md R141, R143: LD Vx, kk and LD Vx, Vy, for every register, VF included. -/
def Obligations.LoadsCopyTheirOperand : Prop :=
  ∀ (x y : Reg) (kk : Byte) (s : State),
    ((encode (.ldImm x kk)).toNat = 0x6000 + 256 * x.val + kk.toNat ∧
      ∃ t, exec (.ldImm x kk) s = .next t ∧ t.reg x = kk ∧ KeepsRegsBut [x] s t ∧ KeepsAllBut [.regs] s t ∧
        ContinuesAt (s.pc + 2) t) ∧
    ((encode (.ldReg x y)).toNat = 0x8000 + 256 * x.val + 16 * y.val ∧
      ∃ t, exec (.ldReg x y) s = .next t ∧ t.reg x = s.reg y ∧ KeepsRegsBut [x] s t ∧ KeepsAllBut [.regs] s t ∧
        ContinuesAt (s.pc + 2) t)

/-- 42_alu.md R142: ADD Vx, kk wraps at 256 and writes no flag. -/
def Obligations.AddImmediateWrapsWithoutFlag : Prop :=
  ∀ (x : Reg) (kk : Byte) (s : State),
    (encode (.addImm x kk)).toNat = 0x7000 + 256 * x.val + kk.toNat ∧
    ∃ t, exec (.addImm x kk) s = .next t ∧ (t.reg x).toNat = ((s.reg x).toNat + kk.toNat) % 256 ∧
      KeepsRegsBut [x] s t ∧ KeepsAllBut [.regs] s t ∧ ContinuesAt (s.pc + 2) t

/-- 42_alu.md R144, R145, R146: OR, AND and XOR bit by bit, with no flag write. -/
def Obligations.LogicWorksBitByBitWithoutFlag : Prop :=
  ∀ (x y : Reg) (s : State),
    ((encode (.or x y)).toNat = 0x8001 + 256 * x.val + 16 * y.val ∧
      ∃ t, exec (.or x y) s = .next t ∧
        (∀ k, (t.reg x).getLsbD k = ((s.reg x).getLsbD k || (s.reg y).getLsbD k)) ∧
        KeepsRegsBut [x] s t ∧ KeepsAllBut [.regs] s t ∧ ContinuesAt (s.pc + 2) t) ∧
    ((encode (.and x y)).toNat = 0x8002 + 256 * x.val + 16 * y.val ∧
      ∃ t, exec (.and x y) s = .next t ∧
        (∀ k, (t.reg x).getLsbD k = ((s.reg x).getLsbD k && (s.reg y).getLsbD k)) ∧
        KeepsRegsBut [x] s t ∧ KeepsAllBut [.regs] s t ∧ ContinuesAt (s.pc + 2) t) ∧
    ((encode (.xor x y)).toNat = 0x8003 + 256 * x.val + 16 * y.val ∧
      ∃ t, exec (.xor x y) s = .next t ∧
        (∀ k, (t.reg x).getLsbD k = ((s.reg x).getLsbD k ^^ (s.reg y).getLsbD k)) ∧
        KeepsRegsBut [x] s t ∧ KeepsAllBut [.regs] s t ∧ ContinuesAt (s.pc + 2) t)

/-- 42_alu.md R147: ADD Vx, Vy. The flag wins when x is 0xF; both operands are the values before the instruction. -/
def Obligations.AddSetsCarryLast : Prop :=
  ∀ (x y : Reg) (s : State),
    (encode (.addReg x y)).toNat = 0x8004 + 256 * x.val + 16 * y.val ∧
    ∃ t, exec (.addReg x y) s = .next t ∧
      (x ≠ vF → (t.reg x).toNat = ((s.reg x).toNat + (s.reg y).toNat) % 256) ∧
      (t.reg vF).toNat = (if 256 ≤ (s.reg x).toNat + (s.reg y).toNat then 1 else 0) ∧
      KeepsRegsBut [x, vF] s t ∧ KeepsAllBut [.regs] s t ∧ ContinuesAt (s.pc + 2) t

/-- 42_alu.md R148: SUB Vx, Vy, VF = 1 when there is no borrow. -/
def Obligations.SubSetsNoBorrowLast : Prop :=
  ∀ (x y : Reg) (s : State),
    (encode (.sub x y)).toNat = 0x8005 + 256 * x.val + 16 * y.val ∧
    ∃ t, exec (.sub x y) s = .next t ∧
      (x ≠ vF → (t.reg x).toNat = ((s.reg x).toNat + 256 - (s.reg y).toNat) % 256) ∧
      (t.reg vF).toNat = (if (s.reg y).toNat ≤ (s.reg x).toNat then 1 else 0) ∧
      KeepsRegsBut [x, vF] s t ∧ KeepsAllBut [.regs] s t ∧ ContinuesAt (s.pc + 2) t

/-- 42_alu.md R150: SUBN Vx, Vy, the reverse subtraction. -/
def Obligations.SubnSetsNoBorrowLast : Prop :=
  ∀ (x y : Reg) (s : State),
    (encode (.subn x y)).toNat = 0x8007 + 256 * x.val + 16 * y.val ∧
    ∃ t, exec (.subn x y) s = .next t ∧
      (x ≠ vF → (t.reg x).toNat = ((s.reg y).toNat + 256 - (s.reg x).toNat) % 256) ∧
      (t.reg vF).toNat = (if (s.reg x).toNat ≤ (s.reg y).toNat then 1 else 0) ∧
      KeepsRegsBut [x, vF] s t ∧ KeepsAllBut [.regs] s t ∧ ContinuesAt (s.pc + 2) t

/-- 42_alu.md R149: SHR Vx, in place, VF = the bit shifted out; the y field changes nothing. -/
def Obligations.ShrShiftsVxInPlace : Prop :=
  ∀ (x y : Reg) (s : State),
    (encode (.shr x y)).toNat = 0x8006 + 256 * x.val + 16 * y.val ∧
    ∃ t, exec (.shr x y) s = .next t ∧ (x ≠ vF → (t.reg x).toNat = (s.reg x).toNat / 2) ∧
      (t.reg vF).toNat = (s.reg x).toNat % 2 ∧ KeepsRegsBut [x, vF] s t ∧ KeepsAllBut [.regs] s t ∧
      ContinuesAt (s.pc + 2) t ∧ ∀ y', exec (.shr x y') s = .next t

/-- 42_alu.md R151: SHL Vx, in place, VF = the bit shifted out; the y field changes nothing. -/
def Obligations.ShlShiftsVxInPlace : Prop :=
  ∀ (x y : Reg) (s : State),
    (encode (.shl x y)).toNat = 0x800E + 256 * x.val + 16 * y.val ∧
    ∃ t, exec (.shl x y) s = .next t ∧ (x ≠ vF → (t.reg x).toNat = (s.reg x).toNat * 2 % 256) ∧
      (t.reg vF).toNat = (s.reg x).toNat / 128 ∧ KeepsRegsBut [x, vF] s t ∧ KeepsAllBut [.regs] s t ∧
      ContinuesAt (s.pc + 2) t ∧ ∀ y', exec (.shl x y') s = .next t

/-- 42_alu.md R152 (decision D19): RND Vx, kk takes the next draw, whatever it is, and masks it. The draws are the
model's free value and their counter its own field (log entry 3): the statement holds for every value of both. -/
def Obligations.RndMasksAFreshDraw : Prop :=
  ∀ (x : Reg) (kk : Byte) (s : State),
    (encode (.rnd x kk)).toNat = 0xC000 + 256 * x.val + kk.toNat ∧
    ∃ t, exec (.rnd x kk) s = .next t ∧
      (∀ k, (t.reg x).getLsbD k = ((Config.freeByte s.draws).getLsbD k && kk.getLsbD k)) ∧
      t.draws = s.draws + 1 ∧ KeepsRegsBut [x] s t ∧ KeepsAllBut [.regs, .draws] s t ∧ ContinuesAt (s.pc + 2) t

/-! ### The control-flow family -/

/-- 41_control_flow.md R121: RET pops PC and keeps the entry; on an empty stack it is StackUnderflow. -/
def Obligations.RetPopsOrUnderflows : Prop :=
  (encode .ret).toNat = 0x00EE ∧
  ∀ s : State,
    (∀ k : Fin 16, s.sp.val = k.val + 1 →
      ∃ t, exec .ret s = .next t ∧ t.sp.val = k.val ∧ t.stack = s.stack ∧ KeepsAllBut [.stack] s t ∧
        ContinuesAt s.stack[k] t) ∧
    (s.sp = 0 → exec .ret s = .next { s with fault := some ⟨.stackUnderflow, some s.pc, some 0x00EE, .none⟩ })

/-- 41_control_flow.md R123: CALL pushes the address after it and jumps; with 16 entries in use it is StackOverflow. -/
def Obligations.CallPushesOrOverflows : Prop :=
  ∀ (addr : Addr) (s : State),
    (encode (.call addr)).toNat = 0x2000 + addr.toNat ∧
    (∀ k : Fin 16, s.sp.val = k.val →
      ∃ t, exec (.call addr) s = .next t ∧ t.stack[k] = s.pc + 2 ∧ (∀ j : Fin 16, j ≠ k → t.stack[j] = s.stack[j]) ∧
        t.sp.val = k.val + 1 ∧ t.pc.toNat = addr.toNat ∧ t.started = true ∧ KeepsAllBut [.stack] s t) ∧
    (s.sp = 16 → exec (.call addr) s =
      .next { s with fault := some ⟨.stackOverflow, some s.pc, some (encode (.call addr)), .none⟩ })

/-- 41_control_flow.md R122, R128: JP addr, and JP V0, addr, whose target is the plain sum and is never reduced modulo
4096. -/
def Obligations.JumpsSetPc : Prop :=
  ∀ (addr : Addr) (s : State),
    ((encode (.jp addr)).toNat = 0x1000 + addr.toNat ∧
      ∃ t, exec (.jp addr) s = .next t ∧ t.pc.toNat = addr.toNat ∧ t.started = true ∧ KeepsAllBut [] s t) ∧
    ((encode (.jpV0 addr)).toNat = 0xB000 + addr.toNat ∧
      ∃ t, exec (.jpV0 addr) s = .next t ∧ t.pc.toNat = addr.toNat + (s.reg 0).toNat ∧ t.started = true ∧
        KeepsAllBut [] s t)

/-- 41_control_flow.md R124, R125: SE Vx, kk and SNE Vx, kk. -/
def Obligations.ImmediateSkips : Prop :=
  ∀ (x : Reg) (kk : Byte) (s : State),
    ((encode (.seImm x kk)).toNat = 0x3000 + 256 * x.val + kk.toNat ∧
      ∃ t, exec (.seImm x kk) s = .next t ∧ KeepsAllBut [] s t ∧
        (s.reg x = kk → ContinuesAt (s.pc + 4) t) ∧ (s.reg x ≠ kk → ContinuesAt (s.pc + 2) t)) ∧
    ((encode (.sneImm x kk)).toNat = 0x4000 + 256 * x.val + kk.toNat ∧
      ∃ t, exec (.sneImm x kk) s = .next t ∧ KeepsAllBut [] s t ∧
        (s.reg x ≠ kk → ContinuesAt (s.pc + 4) t) ∧ (s.reg x = kk → ContinuesAt (s.pc + 2) t))

/-- 41_control_flow.md R126, R127: SE Vx, Vy and SNE Vx, Vy; a last nibble other than 0 is no instruction. -/
def Obligations.RegisterSkips : Prop :=
  (∀ w : Word, (w.toNat / 4096 = 5 ∨ w.toNat / 4096 = 9) → w.toNat % 16 ≠ 0 → decodeWord w = .error (.illegal w)) ∧
  ∀ (x y : Reg) (s : State),
    ((encode (.seReg x y)).toNat = 0x5000 + 256 * x.val + 16 * y.val ∧
      ∃ t, exec (.seReg x y) s = .next t ∧ KeepsAllBut [] s t ∧
        (s.reg x = s.reg y → ContinuesAt (s.pc + 4) t) ∧ (s.reg x ≠ s.reg y → ContinuesAt (s.pc + 2) t)) ∧
    ((encode (.sneReg x y)).toNat = 0x9000 + 256 * x.val + 16 * y.val ∧
      ∃ t, exec (.sneReg x y) s = .next t ∧ KeepsAllBut [] s t ∧
        (s.reg x ≠ s.reg y → ContinuesAt (s.pc + 4) t) ∧ (s.reg x = s.reg y → ContinuesAt (s.pc + 2) t))

/-- 41_control_flow.md R121, R123, R129: a RET that finds the stack as a CALL left it goes on after that CALL, whatever
the subroutine did to the rest of the state. -/
def Obligations.RetComesBackAfterTheCall : Prop :=
  ∀ (addr : Addr) (s t u : State), s.sp.val < 16 → exec (.call addr) s = .next t →
    u.stack = t.stack → u.sp = t.sp →
    ∃ v, exec .ret u = .next v ∧ v.pc = s.pc + 2 ∧ v.sp = s.sp

/-! ### The display family -/

/-- 40_display.md R101: CLS. -/
def Obligations.ClsUnlightsEveryPixel : Prop :=
  (encode .cls).toNat = 0x00E0 ∧
  ∀ s : State, ∃ t, exec .cls s = .next t ∧ (∀ x y, t.fb.pixel x y = false) ∧ KeepsAllBut [.display] s t ∧
    ContinuesAt (s.pc + 2) t

/-- 40_display.md R102, R103: DRW, with the origin and I as they were before it: every pixel is XORed with the sprite,
and VF tells whether the sprite covered a lit pixel. That the origin is read before VF is written is the spec's decision
D12 (R103); height 0 under the default DRAW_ZERO_ROWS is among the cases (R104, decision D13). -/
def Obligations.DrwXorsTheSprite : Prop :=
  ∀ (x y : Reg) (n : Fin 16) (s : State),
    (n = 0 → s.params.drawZeroRows = .empty) → (n = 0 ∨ s.i.toNat + n.val ≤ 4096) →
    ∃ t, exec (.drw x y n) s = .next t ∧
      (∀ px py, px < 64 → py < 32 → t.fb.pixel px py =
        (s.fb.pixel px py ^^ spriteCovers s.mem s.i.toNat n.val (s.reg x).toNat (s.reg y).toNat px py)) ∧
      ((∃ px py, px < 64 ∧ py < 32 ∧ s.fb.pixel px py = true ∧
          spriteCovers s.mem s.i.toNat n.val (s.reg x).toNat (s.reg y).toNat px py = true) →
        t.reg vF = 1) ∧
      ((∀ px py, px < 64 → py < 32 → s.fb.pixel px py = true →
          spriteCovers s.mem s.i.toNat n.val (s.reg x).toNat (s.reg y).toNat px py = false) →
        t.reg vF = 0) ∧
      KeepsRegsBut [vF] s t ∧ KeepsAllBut [.display, .regs] s t ∧ ContinuesAt (s.pc + 2) t

/-- 40_display.md R102, R104 (decisions D11 and D13): where DRW faults. With n = 0 under DRAW_ZERO_ROWS = Fault it is
IllegalInstruction; with a row at or above 4096 it is OutOfBounds with the lowest such address. -/
def Obligations.DrwFaults : Prop :=
  ∀ (x y : Reg) (n : Fin 16) (s : State),
    (encode (.drw x y n)).toNat = 0xD000 + 256 * x.val + 16 * y.val + n.val ∧
    (n = 0 → s.params.drawZeroRows = .fault → exec (.drw x y n) s =
      .next { s with fault := some ⟨.illegalInstruction, some s.pc, some (encode (.drw x y n)), .none⟩ }) ∧
    (n ≠ 0 → 4096 < s.i.toNat + n.val → exec (.drw x y n) s =
      .next { s with fault := some ⟨.outOfBounds, some s.pc, some (encode (.drw x y n)), .addr (max s.i.toNat 4096)⟩ })

/-- 40_display.md R102: drawing the same sprite at the same place twice restores the framebuffer. The second draw sets
VF exactly when the sprite covers a pixel that was unlit before the first, as the rule's pseudocode gives (log entry
14). The origin registers are not VF, so that the place is the same. -/
def Obligations.DrawingTwiceRestoresTheFramebuffer : Prop :=
  ∀ (x y : Reg) (n : Fin 16) (s t : State),
    x ≠ vF → y ≠ vF → s.i.toNat + n.val ≤ 4096 → (n = 0 → s.params.drawZeroRows = .empty) →
    exec (.drw x y n) s = .next t →
    ∃ u, exec (.drw x y n) t = .next u ∧ u.fb = s.fb ∧
      (u.reg vF = 0 ∨ u.reg vF = 1) ∧
      (u.reg vF = 1 ↔ ∃ px py, px < 64 ∧ py < 32 ∧ s.fb.pixel px py = false ∧
        spriteCovers s.mem s.i.toNat n.val (s.reg x).toNat (s.reg y).toNat px py = true)

/-- The sentence of 40_display.md R102 marked as derived there, taken as it stands: "the second draw sets VF = 1 exactly
when the sprite has a set bit". It FAILS where the sprite's pixels were lit before the first draw: the first draw
unlights them, and the second then hits none (log entry 14). -/
def Obligations.SecondDrawSetsVfForAnySetBit : Prop :=
  ∀ (x y : Reg) (n : Fin 16) (s t u : State),
    x ≠ vF → y ≠ vF → s.i.toNat + n.val ≤ 4096 → (n = 0 → s.params.drawZeroRows = .empty) →
    exec (.drw x y n) s = .next t → exec (.drw x y n) t = .next u →
    (u.reg vF = 1 ↔ ∃ r < n.val, s.mem.read (s.i.toNat + r) ≠ 0)

/-! ### The index register and memory family -/

/-- 43_index_memory.md R170: LD I, addr. -/
def Obligations.LdILoadsTheAddress : Prop :=
  ∀ (addr : Addr) (s : State),
    (encode (.ldI addr)).toNat = 0xA000 + addr.toNat ∧
    ∃ t, exec (.ldI addr) s = .next t ∧ t.i.toNat = addr.toNat ∧ KeepsAllBut [.index] s t ∧ ContinuesAt (s.pc + 2) t

/-- 43_index_memory.md R171, R172: ADD I, Vx modulo 65536 (the wrap is decision D10) with no flag; LD F, Vx, 5 times the
whole register. -/
def Obligations.AddIAndLdFComputeI : Prop :=
  ∀ (x : Reg) (s : State),
    ((encode (.addI x)).toNat = 0xF01E + 256 * x.val ∧
      ∃ t, exec (.addI x) s = .next t ∧ t.i.toNat = (s.i.toNat + (s.reg x).toNat) % 65536 ∧ KeepsAllBut [.index] s t ∧
        ContinuesAt (s.pc + 2) t) ∧
    ((encode (.ldF x)).toNat = 0xF029 + 256 * x.val ∧
      ∃ t, exec (.ldF x) s = .next t ∧ t.i.toNat = 5 * (s.reg x).toNat ∧ KeepsAllBut [.index] s t ∧
        ContinuesAt (s.pc + 2) t)

/-- 43_index_memory.md R173, R176: LD B, Vx stores the three digits and no other byte; out of bounds it stores none.
That I is kept is the spec's decision D15. -/
def Obligations.LdBStoresTheDigits : Prop :=
  ∀ (x : Reg) (s : State),
    (encode (.ldB x)).toNat = 0xF033 + 256 * x.val ∧
    (memAtI s 2 < 4096 →
      ∃ t, exec (.ldB x) s = .next t ∧
        (t.mem.read (memAtI s 0)).toNat = (s.reg x).toNat / 100 ∧
        (t.mem.read (memAtI s 1)).toNat = (s.reg x).toNat / 10 % 10 ∧
        (t.mem.read (memAtI s 2)).toNat = (s.reg x).toNat % 10 ∧
        (∀ a, (∀ k, k < 3 → a ≠ memAtI s k) → t.mem.read a = s.mem.read a) ∧
        KeepsAllBut [.memory] s t ∧ ContinuesAt (s.pc + 2) t) ∧
    (4096 ≤ memAtI s 2 → exec (.ldB x) s =
      .next { s with fault := some ⟨.outOfBounds, some s.pc, some (encode (.ldB x)), .addr (max s.i.toNat 4096)⟩ })

/-- 43_index_memory.md R174, R176: LD [I], Vx stores V0 to Vx and no other byte; out of bounds it stores none. That I is
kept is the spec's decision D15. -/
def Obligations.LdMemStoresTheRegisters : Prop :=
  ∀ (x : Reg) (s : State),
    (encode (.ldMemVx x)).toNat = 0xF055 + 256 * x.val ∧
    (memAtI s x.val < 4096 →
      ∃ t, exec (.ldMemVx x) s = .next t ∧
        (∀ k : Reg, k ≤ x → t.mem.read (memAtI s k.val) = s.reg k) ∧
        (∀ a, (∀ k : Reg, k ≤ x → a ≠ memAtI s k.val) → t.mem.read a = s.mem.read a) ∧
        KeepsAllBut [.memory] s t ∧ ContinuesAt (s.pc + 2) t) ∧
    (4096 ≤ memAtI s x.val → exec (.ldMemVx x) s =
      .next { s with fault := some ⟨.outOfBounds, some s.pc, some (encode (.ldMemVx x)), .addr (max s.i.toNat 4096)⟩ })

/-- 43_index_memory.md R175, R176: LD Vx, [I] loads V0 to Vx and no other register; out of bounds it loads none. That I
is kept is the spec's decision D15. -/
def Obligations.LdVxMemLoadsTheRegisters : Prop :=
  ∀ (x : Reg) (s : State),
    (encode (.ldVxMem x)).toNat = 0xF065 + 256 * x.val ∧
    (memAtI s x.val < 4096 →
      ∃ t, exec (.ldVxMem x) s = .next t ∧
        (∀ k : Reg, k ≤ x → t.reg k = s.mem.read (memAtI s k.val)) ∧ (∀ k : Reg, x < k → t.reg k = s.reg k) ∧
        KeepsAllBut [.regs] s t ∧ ContinuesAt (s.pc + 2) t) ∧
    (4096 ≤ memAtI s x.val → exec (.ldVxMem x) s =
      .next { s with fault := some ⟨.outOfBounds, some s.pc, some (encode (.ldVxMem x)), .addr (max s.i.toNat 4096)⟩ })

/-- 43_index_memory.md R174, R175, R176: registers stored and loaded again, with memory and I as the store left them,
hold what they held. -/
def Obligations.LoadAfterStoreRestoresTheRegisters : Prop :=
  ∀ (x : Reg) (s t u : State), memAtI s x.val < 4096 → exec (.ldMemVx x) s = .next t → u.mem = t.mem → u.i = t.i →
    ∃ v, exec (.ldVxMem x) u = .next v ∧ ∀ k : Reg, k ≤ x → v.reg k = s.reg k

/-- 20_memory.md R63, 70_reset_and_hazards.md R247: the bytes LD [I], Vx writes at the next instruction's address are
the ones the next step fetches. -/
def Obligations.StoreReachesTheNextFetch : Prop :=
  ∀ (x k j : Reg) (s t : State), j.val = k.val + 1 → j ≤ x → memAtI s x.val < 4096 →
    exec (.ldMemVx x) s = .next t → t.pc.toNat = memAtI s k.val →
    fetch t = .ok (wordOfBytes (s.reg k) (s.reg j))

/-! ### The timer and key family -/

/-- 44_timers_keys.md R190, R191, R196: SKP and SKNP by the key Vx names; an index above 15 is KeyIndexOutOfRange (the
spec's decision D14). -/
def Obligations.KeySkips : Prop :=
  ∀ (x : Reg) (s : State),
    (encode (.skp x)).toNat = 0xE09E + 256 * x.val ∧ (encode (.sknp x)).toNat = 0xE0A1 + 256 * x.val ∧
    (∀ k : Key, (s.reg x).toNat = k.val →
      (∃ t, exec (.skp x) s = .next t ∧ KeepsAllBut [] s t ∧
        (s.key k = true → ContinuesAt (s.pc + 4) t) ∧ (s.key k = false → ContinuesAt (s.pc + 2) t)) ∧
      ∃ t, exec (.sknp x) s = .next t ∧ KeepsAllBut [] s t ∧
        (s.key k = false → ContinuesAt (s.pc + 4) t) ∧ (s.key k = true → ContinuesAt (s.pc + 2) t)) ∧
    (15 < (s.reg x).toNat →
      exec (.skp x) s =
        .next { s with fault := some ⟨.keyIndexOutOfRange, some s.pc, some (encode (.skp x)), .value (s.reg x)⟩ } ∧
      exec (.sknp x) s =
        .next { s with fault := some ⟨.keyIndexOutOfRange, some s.pc, some (encode (.sknp x)), .value (s.reg x)⟩ })

/-- 44_timers_keys.md R192, R194, R195: the three timer moves. -/
def Obligations.TimerMoves : Prop :=
  ∀ (x : Reg) (s : State),
    ((encode (.ldVxDt x)).toNat = 0xF007 + 256 * x.val ∧
      ∃ t, exec (.ldVxDt x) s = .next t ∧ t.reg x = s.dt ∧ KeepsRegsBut [x] s t ∧ KeepsAllBut [.regs] s t ∧
        ContinuesAt (s.pc + 2) t) ∧
    ((encode (.ldDtVx x)).toNat = 0xF015 + 256 * x.val ∧
      ∃ t, exec (.ldDtVx x) s = .next t ∧ t.dt = s.reg x ∧ KeepsAllBut [.delayTimer] s t ∧ ContinuesAt (s.pc + 2) t) ∧
    ((encode (.ldStVx x)).toNat = 0xF018 + 256 * x.val ∧
      ∃ t, exec (.ldStVx x) s = .next t ∧ t.st = s.reg x ∧ KeepsAllBut [.soundTimer] s t ∧ ContinuesAt (s.pc + 2) t)

/-- 44_timers_keys.md R193: LD Vx, K writes the lowest pressed key; with none pressed PC is the instruction's again and
nothing else changes. -/
def Obligations.KeyWaitTakesTheLowestKeyOrRepeats : Prop :=
  ∀ (x : Reg) (s : State),
    (encode (.ldVxK x)).toNat = 0xF00A + 256 * x.val ∧
    (∀ k : Key, s.key k = true → (∀ j : Key, j < k → s.key j = false) →
      ∃ t, exec (.ldVxK x) s = .next t ∧ (t.reg x).toNat = k.val ∧ KeepsRegsBut [x] s t ∧ KeepsAllBut [.regs] s t ∧
        ContinuesAt (s.pc + 2) t) ∧
    ((∀ k : Key, s.key k = false) → ∃ t, exec (.ldVxK x) s = .next t ∧ KeepsAllBut [] s t ∧ ContinuesAt s.pc t)

/-! ### The host's transactions -/

/-- 60_exceptions.md R223: tick decrements each timer that is above 0, and changes nothing else. -/
def Obligations.TickCountsBothTimersDown : Prop :=
  ∀ s : State, s.fault = none →
    ∃ t, tick s = .next t ∧ t.dt.toNat = s.dt.toNat - 1 ∧ t.st.toNat = s.st.toNat - 1 ∧
      t = { s with dt := t.dt, st := t.st }

/-- 60_exceptions.md R229: set_key writes one key and changes nothing else. -/
def Obligations.SetKeyWritesOneKey : Prop :=
  ∀ (s : State) (k : Key) (pressed : Bool), s.fault = none →
    ∃ t, setKey k pressed s = .next t ∧ t.key k = pressed ∧ (∀ j, j ≠ k → t.key j = s.key j) ∧
      t = { s with keys := t.keys }

/-- 60_exceptions.md R227, R218: load before the first step copies an image that fits to 0x200 and up and changes no
other byte; one that does not fit is MalformedImage and writes nothing; after the first step it is refused (the spec's
decision D21). -/
def Obligations.LoadCopiesTheImageOrRejectsIt : Prop :=
  ∀ (s : State) (image : List Byte), s.fault = none →
    (s.started = false → image.length ≤ 3584 →
      ∃ t, load image s = .next t ∧ (∀ k b, image[k]? = some b → t.mem.read (0x200 + k) = b) ∧
        (∀ a, a < 0x200 ∨ 0x200 + image.length ≤ a → t.mem.read a = s.mem.read a) ∧ t = { s with mem := t.mem }) ∧
    (s.started = false → 3584 < image.length → load image s =
      .next { s with fault := some ⟨.malformedImage, none, none, .len image.length⟩ }) ∧
    (s.started = true → load image s = .refused .loadAfterStart)

/-- 70_reset_and_hazards.md R253 (decision D29): a Parked or a Waiting core stays as it is under any number of further
steps, but for the mark that it has started. -/
def Obligations.ParkedAndWaitingCoresStay : Prop :=
  ∀ (s : State) (n : Nat), Parked s ∨ Waiting s →
    runAll (List.replicate (n + 1) .step) s = .next { s with started := true }
end

