-- ==== Sys2Proof/Laws/Decode.lean ====
section
/-! SUPPORT. The fields of an encoded word, and a word put together from its fields. -/

namespace Sys2Proof

/-- Concatenation, with a in the high bits, as a number (00_scope.md R10). -/
theorem toNat_concat {m n : Nat} (a : BitVec m) (b : BitVec n) : (a ++ b).toNat = a.toNat * 2 ^ n + b.toNat := by
  rw [BitVec.toNat_append, ← Nat.shiftLeft_add_eq_or_of_lt b.isLt, Nat.shiftLeft_eq]

theorem toNat_wordOfNibbles (a b c d : BitVec 4) :
    (wordOfNibbles a b c d).toNat = a.toNat * 4096 + b.toNat * 256 + c.toNat * 16 + d.toNat := by
  have := a.isLt; have := b.isLt; have := c.isLt; have := d.isLt
  simp only [wordOfNibbles, toNat_concat]
  omega

theorem toNat_encodeAddr (d1 : BitVec 4) (addr : Addr) :
    (encodeAddr d1 addr).toNat = d1.toNat * 4096 + addr.toNat := by
  simp only [encodeAddr, toNat_concat, Nat.reducePow]

theorem toNat_encodeXKk (d1 : BitVec 4) (x : Reg) (kk : Byte) :
    (encodeXKk d1 x kk).toNat = d1.toNat * 4096 + x.val * 256 + kk.toNat := by
  have := x.isLt; have := d1.isLt; have := kk.isLt
  simp only [encodeXKk, toNat_concat,
    BitVec.toNat_ofFin]
  omega

theorem toNat_encodeXY (d1 : BitVec 4) (x y : Reg) (d4 : BitVec 4) :
    (encodeXY d1 x y d4).toNat = d1.toNat * 4096 + x.val * 256 + y.val * 16 + d4.toNat := by
  simp only [encodeXY, toNat_wordOfNibbles, BitVec.toNat_ofFin]

theorem toNat_wordOfBytes (hi lo : Byte) : (wordOfBytes hi lo).toNat = hi.toNat * 256 + lo.toNat := by
  simp only [wordOfBytes, toNat_concat, Nat.reducePow]

theorem toNat_nib1 (w : Word) : (nib1 w).toNat = w.toNat / 4096 := by
  have := w.isLt
  simp [nib1, Nat.shiftRight_eq_div_pow]; omega

theorem toNat_nib2 (w : Word) : (nib2 w).toNat = w.toNat / 256 % 16 := by
  simp [nib2, Nat.shiftRight_eq_div_pow]

theorem toNat_nib3 (w : Word) : (nib3 w).toNat = w.toNat / 16 % 16 := by
  simp [nib3, Nat.shiftRight_eq_div_pow]

theorem toNat_nib4 (w : Word) : (nib4 w).toNat = w.toNat % 16 := by
  simp [nib4]

theorem val_fieldX (w : Word) : (fieldX w).val = w.toNat / 256 % 16 := toNat_nib2 w

theorem val_fieldY (w : Word) : (fieldY w).val = w.toNat / 16 % 16 := toNat_nib3 w

theorem val_fieldN (w : Word) : (fieldN w).val = w.toNat % 16 := toNat_nib4 w

theorem toNat_fieldKk (w : Word) : (fieldKk w).toNat = w.toNat % 256 := by
  simp [fieldKk]

theorem toNat_fieldAddr (w : Word) : (fieldAddr w).toNat = w.toNat % 4096 := by
  simp [fieldAddr]

theorem toNat_highByte (w : Word) : (highByte w).toNat = w.toNat / 256 := by
  have := w.isLt
  simp [highByte, Nat.shiftRight_eq_div_pow]; omega

theorem toNat_lowByte (w : Word) : (lowByte w).toNat = w.toNat % 256 := by
  simp [lowByte]

/-! ### The fields of an encoded word -/

@[simp] theorem nib1_encodeAddr (d1 : BitVec 4) (addr : Addr) : nib1 (encodeAddr d1 addr) = d1 := by
  apply BitVec.eq_of_toNat_eq
  have := addr.isLt
  rw [toNat_nib1, toNat_encodeAddr]; omega

@[simp] theorem fieldAddr_encodeAddr (d1 : BitVec 4) (addr : Addr) : fieldAddr (encodeAddr d1 addr) = addr := by
  apply BitVec.eq_of_toNat_eq
  have := addr.isLt
  rw [toNat_fieldAddr, toNat_encodeAddr]; omega

@[simp] theorem nib1_encodeXKk (d1 : BitVec 4) (x : Reg) (kk : Byte) : nib1 (encodeXKk d1 x kk) = d1 := by
  apply BitVec.eq_of_toNat_eq
  have := x.isLt; have := kk.isLt
  rw [toNat_nib1, toNat_encodeXKk]; omega

@[simp] theorem fieldX_encodeXKk (d1 : BitVec 4) (x : Reg) (kk : Byte) : fieldX (encodeXKk d1 x kk) = x := by
  apply Fin.ext
  have := x.isLt; have := kk.isLt
  rw [val_fieldX, toNat_encodeXKk]; omega

@[simp] theorem fieldKk_encodeXKk (d1 : BitVec 4) (x : Reg) (kk : Byte) : fieldKk (encodeXKk d1 x kk) = kk := by
  apply BitVec.eq_of_toNat_eq
  have := x.isLt; have := kk.isLt
  rw [toNat_fieldKk, toNat_encodeXKk]; omega

@[simp] theorem nib1_encodeXY (d1 : BitVec 4) (x y : Reg) (d4 : BitVec 4) : nib1 (encodeXY d1 x y d4) = d1 := by
  apply BitVec.eq_of_toNat_eq
  have := x.isLt; have := y.isLt; have := d4.isLt
  rw [toNat_nib1, toNat_encodeXY]; omega

@[simp] theorem nib4_encodeXY (d1 : BitVec 4) (x y : Reg) (d4 : BitVec 4) : nib4 (encodeXY d1 x y d4) = d4 := by
  apply BitVec.eq_of_toNat_eq
  have := x.isLt; have := y.isLt; have := d4.isLt
  rw [toNat_nib4, toNat_encodeXY]; omega

@[simp] theorem fieldX_encodeXY (d1 : BitVec 4) (x y : Reg) (d4 : BitVec 4) : fieldX (encodeXY d1 x y d4) = x := by
  apply Fin.ext
  have := x.isLt; have := y.isLt; have := d4.isLt
  rw [val_fieldX, toNat_encodeXY]; omega

@[simp] theorem fieldY_encodeXY (d1 : BitVec 4) (x y : Reg) (d4 : BitVec 4) : fieldY (encodeXY d1 x y d4) = y := by
  apply Fin.ext
  have := x.isLt; have := y.isLt; have := d4.isLt
  rw [val_fieldY, toNat_encodeXY]; omega

@[simp] theorem fieldN_encodeXY (d1 : BitVec 4) (x y : Reg) (d4 : BitVec 4) :
    fieldN (encodeXY d1 x y d4) = d4.toFin := by
  apply Fin.ext
  have := x.isLt; have := y.isLt; have := d4.isLt
  rw [val_fieldN, toNat_encodeXY]; simp only [BitVec.val_toFin]; omega

/-- A word is its two bytes, high byte first (20_memory.md R54). -/
@[simp] theorem wordOfBytes_high_low (w : Word) : wordOfBytes (highByte w) (lowByte w) = w := by
  apply BitVec.eq_of_toNat_eq
  rw [toNat_wordOfBytes, toNat_highByte, toNat_lowByte]; omega

/-- Decoding two bytes and more is decoding their word (30_encoding.md R70). -/
theorem decodeBytes_cons (hi lo : Byte) (rest : List Byte) :
    decodeBytes (hi :: lo :: rest) = (decodeWord (wordOfBytes hi lo)).map fun i => (i, rest) := rfl

/-- What the decoder refuses, it refuses as illegal, with the word (30_encoding.md R76). -/
theorem decodeWord_error {w : Word} {e : DecodeError} (h : decodeWord w = .error e) : e = .illegal w := by
  unfold decodeWord at h
  split at h <;> try contradiction
  · unfold decodeFixed at h
    repeat' (split at h)
    all_goals simp_all
  all_goals first
    | (unfold decodeTwoReg at h; split at h <;> simp_all)
    | (unfold decodeSubOp at h; split at h <;> simp_all)

/-- The all-ones word is no instruction (30_encoding.md R79). -/
theorem decodeWord_allOnes : decodeWord 0xFFFF = .error (.illegal 0xFFFF) := by decide

end Sys2Proof
end

