-- ==== Sys2Proof/Laws/Memory.lean ====
section
/-! SUPPORT. The laws of memory: read after write, the canonical form and that every operation keeps it, and what the
bounds check answers. -/

namespace Sys2Proof.Machine

theorem Memory.read_filter_ne (m : Memory) (a b : Nat) :
    Memory.read (m.filter (fun c => c.1 != a)) b = if b = a then Memory.unlisted b else m.read b := by
  induction m with
  | nil => simp [Memory.read]
  | cons c m ih =>
    obtain ⟨k, v⟩ := c
    by_cases hk : k = a
    · subst hk
      by_cases hb : b = k <;> simp_all [Memory.read]
    · by_cases hb : b = k
      · subst hb
        simp [Memory.read, hk]
      · simp [Memory.read, hk, hb, ih]

theorem Memory.read_insert (m : Memory) (a b : Nat) (v : Byte) (h : ∀ c ∈ m, c.1 ≠ a) :
    Memory.read (m.insert a v) b = if b = a then v else m.read b := by
  induction m with
  | nil => simp [Memory.insert, Memory.read]
  | cons c m ih =>
    obtain ⟨k, w⟩ := c
    have hk : k ≠ a := h (k, w) (by simp)
    have ih' := ih fun c hc => h c (by simp [hc])
    unfold Memory.insert
    split
    · simp [Memory.read]
    · simp only [Memory.read]
      by_cases hb : b = k
      · subst hb
        simp [hk]
      · simp [hb, ih']

/-- Read after write, at every address (20_memory.md R60). -/
theorem Memory.read_write (m : Memory) (a b : Nat) (v : Byte) :
    (m.write a v).read b = if b = a then v else m.read b := by
  unfold Memory.write
  split
  · next h => rw [Memory.read_filter_ne, h]; split <;> simp_all
  · rw [Memory.read_insert _ _ _ _ (by simp), Memory.read_filter_ne]
    split <;> simp_all

@[simp] theorem Memory.read_write_self (m : Memory) (a : Nat) (v : Byte) : (m.write a v).read a = v := by
  simp [Memory.read_write]

theorem Memory.read_write_of_ne (m : Memory) (a b : Nat) (v : Byte) (h : b ≠ a) :
    (m.write a v).read b = m.read b := by
  simp [Memory.read_write, h]

/-- What a run of byte writes leaves at each address. -/
theorem Memory.read_writeBytes (m : Memory) (a : Nat) (bs : List Byte) (b : Nat) :
    (m.writeBytes a bs).read b = if h : a ≤ b ∧ b - a < bs.length then bs[b - a]'h.2 else m.read b := by
  induction bs generalizing m a with
  | nil => simp [Memory.writeBytes]
  | cons x xs ih =>
    rw [Memory.writeBytes, ih]
    by_cases h1 : b = a
    · subst h1; simp
    · by_cases h2 : a + 1 ≤ b ∧ b - (a + 1) < xs.length
      · have h3 : a ≤ b ∧ b - a < (x :: xs).length := by simp; omega
        have h4 : b - a = (b - (a + 1)) + 1 := by omega
        simp only [h2, h3, and_self, dif_pos]
        simp [h4]
      · have h3 : ¬ (a ≤ b ∧ b - a < (x :: xs).length) := by simp; omega
        rw [dif_neg h2, dif_neg h3, Memory.read_write_of_ne _ _ _ _ h1]

theorem Memory.mem_insert (m : Memory) (a : Nat) (v : Byte) (c : Host.Cell) :
    c ∈ m.insert a v ↔ c = (a, v) ∨ c ∈ m := by
  induction m with
  | nil => simp [Memory.insert]
  | cons d m ih =>
    obtain ⟨k, w⟩ := d
    unfold Memory.insert
    split
    · simp
    · simp only [List.mem_cons, ih]; tauto

theorem Memory.insert_rising (m : Memory) (a : Nat) (v : Byte) (h : (m.map Prod.fst).Pairwise (· < ·))
    (hne : ∀ c ∈ m, c.1 ≠ a) : ((m.insert a v).map Prod.fst).Pairwise (· < ·) := by
  induction m with
  | nil => simp [Memory.insert]
  | cons c m ih =>
    obtain ⟨k, w⟩ := c
    simp only [List.map_cons, List.pairwise_cons] at h
    have hk : k ≠ a := hne (k, w) (by simp)
    unfold Memory.insert
    split
    · next hlt =>
      simp only [List.map_cons, List.pairwise_cons, List.mem_cons]
      refine ⟨?_, h.1, h.2⟩
      rintro b (rfl | hb)
      · exact hlt
      · exact lt_trans hlt (h.1 b hb)
    · next hge =>
      simp only [List.map_cons, List.pairwise_cons]
      refine ⟨?_, ih h.2 fun c hc => hne c (by simp [hc])⟩
      intro b hb
      obtain ⟨c, hc, rfl⟩ := List.mem_map.1 hb
      rcases (Memory.mem_insert m a v c).1 hc with rfl | hc
      · show k < a; omega
      · exact h.1 _ (List.mem_map.2 ⟨c, hc, rfl⟩)

/-- A write to an address that exists keeps the canonical form. -/
theorem Memory.wf_write {m : Memory} (h : m.wf) {a : Nat} (v : Byte) (ha : a < Config.memSize) : (m.write a v).wf := by
  obtain ⟨hs, hc⟩ := h
  have hsub : ((m.filter (fun c => c.1 != a)).map Prod.fst).Pairwise (· < ·) :=
    hs.sublist (List.filter_sublist.map _)
  unfold Memory.write
  split
  · exact ⟨hsub, fun c hcm => hc c (List.mem_filter.1 hcm).1⟩
  · next hv =>
    refine ⟨Memory.insert_rising _ _ _ hsub (by simp), fun c hcm => ?_⟩
    rcases (Memory.mem_insert _ _ _ _).1 hcm with rfl | hcm
    · exact ⟨ha, hv⟩
    · exact hc c (List.mem_filter.1 hcm).1

/-- A run of byte writes inside the 4096 addresses keeps the canonical form. -/
theorem Memory.wf_writeBytes {m : Memory} (h : m.wf) (a : Nat) (bs : List Byte) (hb : a + bs.length ≤ Config.memSize) :
    (m.writeBytes a bs).wf := by
  induction bs generalizing m a with
  | nil => exact h
  | cons x xs ih =>
    simp only [List.length_cons] at hb
    exact ih (Memory.wf_write h x (by omega)) (a + 1) (by omega)

@[simp] theorem Memory.wf_nil : Memory.wf [] := by simp [Memory.wf]

theorem Memory.read_of_not_listed (m : Memory) (a : Nat) (h : ∀ c ∈ m, c.1 ≠ a) : m.read a = Memory.unlisted a := by
  induction m with
  | nil => rfl
  | cons c m ih =>
    obtain ⟨k, v⟩ := c
    have hk : a ≠ k := fun e => h (k, v) (by simp) e.symm
    simp [Memory.read, hk, ih fun c hc => h c (by simp [hc])]

@[simp] theorem Memory.unlisted_of_fontSize_le {a : Nat} (h : Config.fontSize ≤ a) : Memory.unlisted a = 0 := by
  unfold Memory.unlisted
  rw [dif_neg (by omega)]

/-- The bounds check passes exactly when every address exists, or there is none to check. -/
theorem firstOutOfBounds_eq_none {base count : Nat} :
    firstOutOfBounds base count = none ↔ count = 0 ∨ base + count ≤ 4096 := by
  simp only [firstOutOfBounds, List.find?_eq_none, List.mem_map, List.mem_range, decide_eq_true_eq, Config.memSize, forall_exists_index,
    and_imp, forall_apply_eq_imp_iff₂]
  constructor
  · intro h
    rcases Nat.eq_zero_or_pos count with h0 | h0
    · exact .inl h0
    · have := h (count - 1) (by omega); omega
  · intro h k hk; omega

/-- The address the bounds check answers: the lowest one at or above 4096 (20_memory.md R53). -/
theorem firstOutOfBounds_eq_some {base count a : Nat} :
    firstOutOfBounds base count = some a ↔ 0 < count ∧ 4096 < base + count ∧ a = max base 4096 := by
  induction count generalizing a with
  | zero => simp [firstOutOfBounds]
  | succ n ih =>
    have hstep : firstOutOfBounds base (n + 1) =
        (firstOutOfBounds base n).or (if 4096 ≤ base + n then some (base + n) else none) := by
      simp [firstOutOfBounds, List.range_succ, List.find?_append]
    rw [hstep]
    cases hf : firstOutOfBounds base n with
    | none =>
      have := firstOutOfBounds_eq_none.1 hf
      simp only [Option.none_or]
      split
      · simp only [Option.some.injEq]; omega
      · simp only [reduceCtorEq, false_iff]; omega
    | some b =>
      have hb := ih.1 hf
      simp only [Option.some_or, Option.some.injEq]
      omega

/-- Two canonical memories that read alike everywhere are the same list. -/
theorem Memory.ext_of_read {m m' : Memory} (h : m.wf) (h' : m'.wf) (hr : ∀ a, m.read a = m'.read a) : m = m' := by
  induction m generalizing m' with
  | nil =>
    cases m' with
    | nil => rfl
    | cons c m' =>
      have := hr c.1
      simp only [Memory.read, if_true] at this
      exact absurd this.symm (h'.2 c (by simp)).2
  | cons c m ih =>
    obtain ⟨k, v⟩ := c
    simp only [Memory.wf, List.map_cons, List.pairwise_cons, List.mem_cons, forall_eq_or_imp] at h
    obtain ⟨⟨hlt, hs⟩, ⟨-, hv⟩, hc⟩ := h
    have below : ∀ (l : Memory) (b : Nat), (∀ x ∈ l.map Prod.fst, b < x) → l.read b = Memory.unlisted b := by
      intro l b hl
      refine Memory.read_of_not_listed l b fun c hcm e => ?_
      exact absurd (hl c.1 (List.mem_map.2 ⟨c, hcm, rfl⟩)) (by omega)
    cases m' with
    | nil =>
      have := hr k
      simp only [Memory.read, if_true] at this
      exact absurd this hv
    | cons c' m' =>
      obtain ⟨k', v'⟩ := c'
      simp only [Memory.wf, List.map_cons, List.pairwise_cons, List.mem_cons, forall_eq_or_imp] at h'
      obtain ⟨⟨hlt', hs'⟩, ⟨-, hv'⟩, hc'⟩ := h'
      have hk : k = k' := by
        rcases Nat.lt_trichotomy k k' with hl | he | hg
        · have h1 := hr k
          rw [below ((k', v') :: m') k (by simp; exact ⟨hl, fun x y hx => lt_trans hl (hlt' x (by simp; exact ⟨y, hx⟩))⟩)]
            at h1
          simp only [Memory.read, if_true] at h1
          exact absurd h1 hv
        · exact he
        · have h1 := hr k'
          rw [below ((k, v) :: m) k' (by simp; exact ⟨hg, fun x y hx => lt_trans hg (hlt x (by simp; exact ⟨y, hx⟩))⟩)]
            at h1
          simp only [Memory.read, if_true] at h1
          exact absurd h1.symm hv'
      subst hk
      have hvv : v = v' := by simpa [Memory.read] using hr k
      subst hvv
      congr 1
      refine ih ⟨hs, hc⟩ ⟨hs', hc'⟩ fun a => ?_
      by_cases ha : a = k
      · subst ha
        rw [below m a hlt, below m' a hlt']
      · simpa [Memory.read, ha] using hr a

/-- The concatenation of 16 rows of 5, by row and column. -/
theorem getElem?_flatMap_toList (l : List (Vector Byte 5)) (d r : Nat) (hd : d < l.length) (hr : r < 5) :
    (l.flatMap Vector.toList)[5 * d + r]? = some (l[d])[r] := by
  induction l generalizing d with
  | nil => simp at hd
  | cons v l ih =>
    rw [List.flatMap_cons]
    cases d with
    | zero => rw [List.getElem?_append_left (by simpa using hr)]; simp [hr]
    | succ d =>
      rw [List.getElem?_append_right (by simp; omega)]
      simpa [show 5 * (d + 1) + r - 5 = 5 * d + r by omega] using ih d (by simpa using hd)

/-- Memory after reset holds the font at 5 d + r, row r of glyph d (10_state.md R33). -/
theorem Memory.read_ofFont (font : Config.Font) (d : Fin 16) (r : Fin 5) :
    (Memory.ofFont font).read (5 * d.val + r.val) = (font[d])[r] := by
  have hlen : (font.toList.flatMap Vector.toList).length = 80 := by simp
  rw [Memory.ofFont, Memory.read_writeBytes, dif_pos ⟨by omega, by rw [hlen]; omega⟩]
  obtain ⟨_, h⟩ := List.getElem?_eq_some_iff.1 (getElem?_flatMap_toList font.toList d.val r.val (by simp) r.isLt)
  simpa using h

theorem Memory.wf_ofFont (font : Config.Font) : (Memory.ofFont font).wf :=
  Memory.wf_writeBytes Memory.wf_nil _ _ (by simp [Config.memSize])

end Sys2Proof.Machine
end

