-- ==== Sys2Proof/Laws/State.lean ====
section
/-! SUPPORT. One lemma per field and per update of the state, true by unfolding the one update. -/

namespace Sys2Proof.Machine

/-! #### State.advance -/

@[simp] theorem State.advance_mem (s : State) : s.advance.mem = s.mem := rfl
@[simp] theorem State.advance_v (s : State) : s.advance.v = s.v := rfl
@[simp] theorem State.advance_i (s : State) : s.advance.i = s.i := rfl
@[simp] theorem State.advance_pc (s : State) : s.advance.pc = s.pc + 2 := rfl
@[simp] theorem State.advance_stack (s : State) : s.advance.stack = s.stack := rfl
@[simp] theorem State.advance_sp (s : State) : s.advance.sp = s.sp := rfl
@[simp] theorem State.advance_dt (s : State) : s.advance.dt = s.dt := rfl
@[simp] theorem State.advance_st (s : State) : s.advance.st = s.st := rfl
@[simp] theorem State.advance_fb (s : State) : s.advance.fb = s.fb := rfl
@[simp] theorem State.advance_keys (s : State) : s.advance.keys = s.keys := rfl
@[simp] theorem State.advance_fault (s : State) : s.advance.fault = s.fault := rfl
@[simp] theorem State.advance_started (s : State) : s.advance.started = true := rfl
@[simp] theorem State.advance_params (s : State) : s.advance.params = s.params := rfl
@[simp] theorem State.advance_draws (s : State) : s.advance.draws = s.draws := rfl

/-! #### State.setReg -/

@[simp] theorem State.setReg_mem (s : State) (x : Reg) (b : Byte) : (s.setReg x b).mem = s.mem := rfl
@[simp] theorem State.setReg_v (s : State) (x : Reg) (b : Byte) : (s.setReg x b).v = s.v.set x b := rfl
@[simp] theorem State.setReg_i (s : State) (x : Reg) (b : Byte) : (s.setReg x b).i = s.i := rfl
@[simp] theorem State.setReg_pc (s : State) (x : Reg) (b : Byte) : (s.setReg x b).pc = s.pc := rfl
@[simp] theorem State.setReg_stack (s : State) (x : Reg) (b : Byte) : (s.setReg x b).stack = s.stack := rfl
@[simp] theorem State.setReg_sp (s : State) (x : Reg) (b : Byte) : (s.setReg x b).sp = s.sp := rfl
@[simp] theorem State.setReg_dt (s : State) (x : Reg) (b : Byte) : (s.setReg x b).dt = s.dt := rfl
@[simp] theorem State.setReg_st (s : State) (x : Reg) (b : Byte) : (s.setReg x b).st = s.st := rfl
@[simp] theorem State.setReg_fb (s : State) (x : Reg) (b : Byte) : (s.setReg x b).fb = s.fb := rfl
@[simp] theorem State.setReg_keys (s : State) (x : Reg) (b : Byte) : (s.setReg x b).keys = s.keys := rfl
@[simp] theorem State.setReg_fault (s : State) (x : Reg) (b : Byte) : (s.setReg x b).fault = s.fault := rfl
@[simp] theorem State.setReg_started (s : State) (x : Reg) (b : Byte) : (s.setReg x b).started = s.started := rfl
@[simp] theorem State.setReg_params (s : State) (x : Reg) (b : Byte) : (s.setReg x b).params = s.params := rfl
@[simp] theorem State.setReg_draws (s : State) (x : Reg) (b : Byte) : (s.setReg x b).draws = s.draws := rfl

/-! #### State.setPc -/

@[simp] theorem State.setPc_mem (s : State) (a : Word) : (s.setPc a).mem = s.mem := rfl
@[simp] theorem State.setPc_v (s : State) (a : Word) : (s.setPc a).v = s.v := rfl
@[simp] theorem State.setPc_i (s : State) (a : Word) : (s.setPc a).i = s.i := rfl
@[simp] theorem State.setPc_pc (s : State) (a : Word) : (s.setPc a).pc = a := rfl
@[simp] theorem State.setPc_stack (s : State) (a : Word) : (s.setPc a).stack = s.stack := rfl
@[simp] theorem State.setPc_sp (s : State) (a : Word) : (s.setPc a).sp = s.sp := rfl
@[simp] theorem State.setPc_dt (s : State) (a : Word) : (s.setPc a).dt = s.dt := rfl
@[simp] theorem State.setPc_st (s : State) (a : Word) : (s.setPc a).st = s.st := rfl
@[simp] theorem State.setPc_fb (s : State) (a : Word) : (s.setPc a).fb = s.fb := rfl
@[simp] theorem State.setPc_keys (s : State) (a : Word) : (s.setPc a).keys = s.keys := rfl
@[simp] theorem State.setPc_fault (s : State) (a : Word) : (s.setPc a).fault = s.fault := rfl
@[simp] theorem State.setPc_started (s : State) (a : Word) : (s.setPc a).started = s.started := rfl
@[simp] theorem State.setPc_params (s : State) (a : Word) : (s.setPc a).params = s.params := rfl
@[simp] theorem State.setPc_draws (s : State) (a : Word) : (s.setPc a).draws = s.draws := rfl

/-! #### State.setI -/

@[simp] theorem State.setI_mem (s : State) (a : Word) : (s.setI a).mem = s.mem := rfl
@[simp] theorem State.setI_v (s : State) (a : Word) : (s.setI a).v = s.v := rfl
@[simp] theorem State.setI_i (s : State) (a : Word) : (s.setI a).i = a := rfl
@[simp] theorem State.setI_pc (s : State) (a : Word) : (s.setI a).pc = s.pc := rfl
@[simp] theorem State.setI_stack (s : State) (a : Word) : (s.setI a).stack = s.stack := rfl
@[simp] theorem State.setI_sp (s : State) (a : Word) : (s.setI a).sp = s.sp := rfl
@[simp] theorem State.setI_dt (s : State) (a : Word) : (s.setI a).dt = s.dt := rfl
@[simp] theorem State.setI_st (s : State) (a : Word) : (s.setI a).st = s.st := rfl
@[simp] theorem State.setI_fb (s : State) (a : Word) : (s.setI a).fb = s.fb := rfl
@[simp] theorem State.setI_keys (s : State) (a : Word) : (s.setI a).keys = s.keys := rfl
@[simp] theorem State.setI_fault (s : State) (a : Word) : (s.setI a).fault = s.fault := rfl
@[simp] theorem State.setI_started (s : State) (a : Word) : (s.setI a).started = s.started := rfl
@[simp] theorem State.setI_params (s : State) (a : Word) : (s.setI a).params = s.params := rfl
@[simp] theorem State.setI_draws (s : State) (a : Word) : (s.setI a).draws = s.draws := rfl

/-! #### State.setDt -/

@[simp] theorem State.setDt_mem (s : State) (b : Byte) : (s.setDt b).mem = s.mem := rfl
@[simp] theorem State.setDt_v (s : State) (b : Byte) : (s.setDt b).v = s.v := rfl
@[simp] theorem State.setDt_i (s : State) (b : Byte) : (s.setDt b).i = s.i := rfl
@[simp] theorem State.setDt_pc (s : State) (b : Byte) : (s.setDt b).pc = s.pc := rfl
@[simp] theorem State.setDt_stack (s : State) (b : Byte) : (s.setDt b).stack = s.stack := rfl
@[simp] theorem State.setDt_sp (s : State) (b : Byte) : (s.setDt b).sp = s.sp := rfl
@[simp] theorem State.setDt_dt (s : State) (b : Byte) : (s.setDt b).dt = b := rfl
@[simp] theorem State.setDt_st (s : State) (b : Byte) : (s.setDt b).st = s.st := rfl
@[simp] theorem State.setDt_fb (s : State) (b : Byte) : (s.setDt b).fb = s.fb := rfl
@[simp] theorem State.setDt_keys (s : State) (b : Byte) : (s.setDt b).keys = s.keys := rfl
@[simp] theorem State.setDt_fault (s : State) (b : Byte) : (s.setDt b).fault = s.fault := rfl
@[simp] theorem State.setDt_started (s : State) (b : Byte) : (s.setDt b).started = s.started := rfl
@[simp] theorem State.setDt_params (s : State) (b : Byte) : (s.setDt b).params = s.params := rfl
@[simp] theorem State.setDt_draws (s : State) (b : Byte) : (s.setDt b).draws = s.draws := rfl

/-! #### State.setSt -/

@[simp] theorem State.setSt_mem (s : State) (b : Byte) : (s.setSt b).mem = s.mem := rfl
@[simp] theorem State.setSt_v (s : State) (b : Byte) : (s.setSt b).v = s.v := rfl
@[simp] theorem State.setSt_i (s : State) (b : Byte) : (s.setSt b).i = s.i := rfl
@[simp] theorem State.setSt_pc (s : State) (b : Byte) : (s.setSt b).pc = s.pc := rfl
@[simp] theorem State.setSt_stack (s : State) (b : Byte) : (s.setSt b).stack = s.stack := rfl
@[simp] theorem State.setSt_sp (s : State) (b : Byte) : (s.setSt b).sp = s.sp := rfl
@[simp] theorem State.setSt_dt (s : State) (b : Byte) : (s.setSt b).dt = s.dt := rfl
@[simp] theorem State.setSt_st (s : State) (b : Byte) : (s.setSt b).st = b := rfl
@[simp] theorem State.setSt_fb (s : State) (b : Byte) : (s.setSt b).fb = s.fb := rfl
@[simp] theorem State.setSt_keys (s : State) (b : Byte) : (s.setSt b).keys = s.keys := rfl
@[simp] theorem State.setSt_fault (s : State) (b : Byte) : (s.setSt b).fault = s.fault := rfl
@[simp] theorem State.setSt_started (s : State) (b : Byte) : (s.setSt b).started = s.started := rfl
@[simp] theorem State.setSt_params (s : State) (b : Byte) : (s.setSt b).params = s.params := rfl
@[simp] theorem State.setSt_draws (s : State) (b : Byte) : (s.setSt b).draws = s.draws := rfl

/-! #### State.setFb -/

@[simp] theorem State.setFb_mem (s : State) (f : Framebuffer) : (s.setFb f).mem = s.mem := rfl
@[simp] theorem State.setFb_v (s : State) (f : Framebuffer) : (s.setFb f).v = s.v := rfl
@[simp] theorem State.setFb_i (s : State) (f : Framebuffer) : (s.setFb f).i = s.i := rfl
@[simp] theorem State.setFb_pc (s : State) (f : Framebuffer) : (s.setFb f).pc = s.pc := rfl
@[simp] theorem State.setFb_stack (s : State) (f : Framebuffer) : (s.setFb f).stack = s.stack := rfl
@[simp] theorem State.setFb_sp (s : State) (f : Framebuffer) : (s.setFb f).sp = s.sp := rfl
@[simp] theorem State.setFb_dt (s : State) (f : Framebuffer) : (s.setFb f).dt = s.dt := rfl
@[simp] theorem State.setFb_st (s : State) (f : Framebuffer) : (s.setFb f).st = s.st := rfl
@[simp] theorem State.setFb_fb (s : State) (f : Framebuffer) : (s.setFb f).fb = f := rfl
@[simp] theorem State.setFb_keys (s : State) (f : Framebuffer) : (s.setFb f).keys = s.keys := rfl
@[simp] theorem State.setFb_fault (s : State) (f : Framebuffer) : (s.setFb f).fault = s.fault := rfl
@[simp] theorem State.setFb_started (s : State) (f : Framebuffer) : (s.setFb f).started = s.started := rfl
@[simp] theorem State.setFb_params (s : State) (f : Framebuffer) : (s.setFb f).params = s.params := rfl
@[simp] theorem State.setFb_draws (s : State) (f : Framebuffer) : (s.setFb f).draws = s.draws := rfl

/-! #### State.storeBytes -/

@[simp] theorem State.storeBytes_mem (s : State) (a : Nat) (bs : List Byte) : (s.storeBytes a bs).mem = s.mem.writeBytes a bs := rfl
@[simp] theorem State.storeBytes_v (s : State) (a : Nat) (bs : List Byte) : (s.storeBytes a bs).v = s.v := rfl
@[simp] theorem State.storeBytes_i (s : State) (a : Nat) (bs : List Byte) : (s.storeBytes a bs).i = s.i := rfl
@[simp] theorem State.storeBytes_pc (s : State) (a : Nat) (bs : List Byte) : (s.storeBytes a bs).pc = s.pc := rfl
@[simp] theorem State.storeBytes_stack (s : State) (a : Nat) (bs : List Byte) : (s.storeBytes a bs).stack = s.stack := rfl
@[simp] theorem State.storeBytes_sp (s : State) (a : Nat) (bs : List Byte) : (s.storeBytes a bs).sp = s.sp := rfl
@[simp] theorem State.storeBytes_dt (s : State) (a : Nat) (bs : List Byte) : (s.storeBytes a bs).dt = s.dt := rfl
@[simp] theorem State.storeBytes_st (s : State) (a : Nat) (bs : List Byte) : (s.storeBytes a bs).st = s.st := rfl
@[simp] theorem State.storeBytes_fb (s : State) (a : Nat) (bs : List Byte) : (s.storeBytes a bs).fb = s.fb := rfl
@[simp] theorem State.storeBytes_keys (s : State) (a : Nat) (bs : List Byte) : (s.storeBytes a bs).keys = s.keys := rfl
@[simp] theorem State.storeBytes_fault (s : State) (a : Nat) (bs : List Byte) : (s.storeBytes a bs).fault = s.fault := rfl
@[simp] theorem State.storeBytes_started (s : State) (a : Nat) (bs : List Byte) : (s.storeBytes a bs).started = s.started := rfl
@[simp] theorem State.storeBytes_params (s : State) (a : Nat) (bs : List Byte) : (s.storeBytes a bs).params = s.params := rfl
@[simp] theorem State.storeBytes_draws (s : State) (a : Nat) (bs : List Byte) : (s.storeBytes a bs).draws = s.draws := rfl

/-! #### State.enterFault -/

@[simp] theorem State.enterFault_mem (s : State) (r : FaultRecord) : (s.enterFault r).mem = s.mem := rfl
@[simp] theorem State.enterFault_v (s : State) (r : FaultRecord) : (s.enterFault r).v = s.v := rfl
@[simp] theorem State.enterFault_i (s : State) (r : FaultRecord) : (s.enterFault r).i = s.i := rfl
@[simp] theorem State.enterFault_pc (s : State) (r : FaultRecord) : (s.enterFault r).pc = s.pc := rfl
@[simp] theorem State.enterFault_stack (s : State) (r : FaultRecord) : (s.enterFault r).stack = s.stack := rfl
@[simp] theorem State.enterFault_sp (s : State) (r : FaultRecord) : (s.enterFault r).sp = s.sp := rfl
@[simp] theorem State.enterFault_dt (s : State) (r : FaultRecord) : (s.enterFault r).dt = s.dt := rfl
@[simp] theorem State.enterFault_st (s : State) (r : FaultRecord) : (s.enterFault r).st = s.st := rfl
@[simp] theorem State.enterFault_fb (s : State) (r : FaultRecord) : (s.enterFault r).fb = s.fb := rfl
@[simp] theorem State.enterFault_keys (s : State) (r : FaultRecord) : (s.enterFault r).keys = s.keys := rfl
@[simp] theorem State.enterFault_fault (s : State) (r : FaultRecord) : (s.enterFault r).fault = some r := rfl
@[simp] theorem State.enterFault_started (s : State) (r : FaultRecord) : (s.enterFault r).started = s.started := rfl
@[simp] theorem State.enterFault_params (s : State) (r : FaultRecord) : (s.enterFault r).params = s.params := rfl
@[simp] theorem State.enterFault_draws (s : State) (r : FaultRecord) : (s.enterFault r).draws = s.draws := rfl

/-! #### State.loadRegs -/

@[simp] theorem State.loadRegs_mem (s : State) (x : Reg) : (s.loadRegs x).mem = s.mem := by simp only [State.loadRegs]
@[simp] theorem State.loadRegs_i (s : State) (x : Reg) : (s.loadRegs x).i = s.i := by simp only [State.loadRegs]
@[simp] theorem State.loadRegs_pc (s : State) (x : Reg) : (s.loadRegs x).pc = s.pc := by simp only [State.loadRegs]
@[simp] theorem State.loadRegs_stack (s : State) (x : Reg) : (s.loadRegs x).stack = s.stack := by simp only [State.loadRegs]
@[simp] theorem State.loadRegs_sp (s : State) (x : Reg) : (s.loadRegs x).sp = s.sp := by simp only [State.loadRegs]
@[simp] theorem State.loadRegs_dt (s : State) (x : Reg) : (s.loadRegs x).dt = s.dt := by simp only [State.loadRegs]
@[simp] theorem State.loadRegs_st (s : State) (x : Reg) : (s.loadRegs x).st = s.st := by simp only [State.loadRegs]
@[simp] theorem State.loadRegs_fb (s : State) (x : Reg) : (s.loadRegs x).fb = s.fb := by simp only [State.loadRegs]
@[simp] theorem State.loadRegs_keys (s : State) (x : Reg) : (s.loadRegs x).keys = s.keys := by simp only [State.loadRegs]
@[simp] theorem State.loadRegs_fault (s : State) (x : Reg) : (s.loadRegs x).fault = s.fault := by simp only [State.loadRegs]
@[simp] theorem State.loadRegs_started (s : State) (x : Reg) : (s.loadRegs x).started = s.started := by simp only [State.loadRegs]
@[simp] theorem State.loadRegs_params (s : State) (x : Reg) : (s.loadRegs x).params = s.params := by simp only [State.loadRegs]
@[simp] theorem State.loadRegs_draws (s : State) (x : Reg) : (s.loadRegs x).draws = s.draws := by simp only [State.loadRegs]

/-! #### State.setStack -/

@[simp] theorem State.setStack_mem (s : State) (e : Vector Word 16) (n : Fin 17) : (s.setStack e n).mem = s.mem := rfl
@[simp] theorem State.setStack_v (s : State) (e : Vector Word 16) (n : Fin 17) : (s.setStack e n).v = s.v := rfl
@[simp] theorem State.setStack_i (s : State) (e : Vector Word 16) (n : Fin 17) : (s.setStack e n).i = s.i := rfl
@[simp] theorem State.setStack_pc (s : State) (e : Vector Word 16) (n : Fin 17) : (s.setStack e n).pc = s.pc := rfl
@[simp] theorem State.setStack_stack (s : State) (e : Vector Word 16) (n : Fin 17) : (s.setStack e n).stack = e := rfl
@[simp] theorem State.setStack_sp (s : State) (e : Vector Word 16) (n : Fin 17) : (s.setStack e n).sp = n := rfl
@[simp] theorem State.setStack_dt (s : State) (e : Vector Word 16) (n : Fin 17) : (s.setStack e n).dt = s.dt := rfl
@[simp] theorem State.setStack_st (s : State) (e : Vector Word 16) (n : Fin 17) : (s.setStack e n).st = s.st := rfl
@[simp] theorem State.setStack_fb (s : State) (e : Vector Word 16) (n : Fin 17) : (s.setStack e n).fb = s.fb := rfl
@[simp] theorem State.setStack_keys (s : State) (e : Vector Word 16) (n : Fin 17) : (s.setStack e n).keys = s.keys := rfl
@[simp] theorem State.setStack_fault (s : State) (e : Vector Word 16) (n : Fin 17) : (s.setStack e n).fault = s.fault := rfl
@[simp] theorem State.setStack_started (s : State) (e : Vector Word 16) (n : Fin 17) : (s.setStack e n).started = s.started := rfl
@[simp] theorem State.setStack_params (s : State) (e : Vector Word 16) (n : Fin 17) : (s.setStack e n).params = s.params := rfl
@[simp] theorem State.setStack_draws (s : State) (e : Vector Word 16) (n : Fin 17) : (s.setStack e n).draws = s.draws := rfl

/-! #### State.draw -/

@[simp] theorem State.draw_snd_mem (s : State) : s.draw.2.mem = s.mem := rfl
@[simp] theorem State.draw_snd_v (s : State) : s.draw.2.v = s.v := rfl
@[simp] theorem State.draw_snd_i (s : State) : s.draw.2.i = s.i := rfl
@[simp] theorem State.draw_snd_pc (s : State) : s.draw.2.pc = s.pc := rfl
@[simp] theorem State.draw_snd_stack (s : State) : s.draw.2.stack = s.stack := rfl
@[simp] theorem State.draw_snd_sp (s : State) : s.draw.2.sp = s.sp := rfl
@[simp] theorem State.draw_snd_dt (s : State) : s.draw.2.dt = s.dt := rfl
@[simp] theorem State.draw_snd_st (s : State) : s.draw.2.st = s.st := rfl
@[simp] theorem State.draw_snd_fb (s : State) : s.draw.2.fb = s.fb := rfl
@[simp] theorem State.draw_snd_keys (s : State) : s.draw.2.keys = s.keys := rfl
@[simp] theorem State.draw_snd_fault (s : State) : s.draw.2.fault = s.fault := rfl
@[simp] theorem State.draw_snd_started (s : State) : s.draw.2.started = s.started := rfl
@[simp] theorem State.draw_snd_params (s : State) : s.draw.2.params = s.params := rfl
@[simp] theorem State.draw_snd_draws (s : State) : s.draw.2.draws = s.draws + 1 := rfl
@[simp] theorem State.draw_fst (s : State) : s.draw.1 = Config.freeByte s.draws := rfl

end Sys2Proof.Machine
end

