-- ==== Sys2Proof/Laws/Ops.lean ====
section
/-! SUPPORT. What each shared operation does, once: registers and flags, the stack, operands, fetch, faults. -/

namespace Sys2Proof.Machine

/-! ### Registers and flags -/

@[simp] theorem State.reg_setReg (s : State) (x y : Reg) (b : Byte) :
    (s.setReg x b).reg y = if y = x then b else s.reg y := by
  simp only [State.reg, State.setReg, Fin.getElem_fin, Vector.getElem_set, Fin.ext_iff, eq_comm (a := y.val)]

@[simp] theorem State.reg_advance (s : State) (y : Reg) : s.advance.reg y = s.reg y := rfl
@[simp] theorem State.reg_setPc (s : State) (a : Word) (y : Reg) : (s.setPc a).reg y = s.reg y := rfl
@[simp] theorem State.reg_setI (s : State) (a : Word) (y : Reg) : (s.setI a).reg y = s.reg y := rfl
@[simp] theorem State.reg_setDt (s : State) (b : Byte) (y : Reg) : (s.setDt b).reg y = s.reg y := rfl
@[simp] theorem State.reg_setSt (s : State) (b : Byte) (y : Reg) : (s.setSt b).reg y = s.reg y := rfl
@[simp] theorem State.reg_setFb (s : State) (f : Framebuffer) (y : Reg) : (s.setFb f).reg y = s.reg y := rfl
@[simp] theorem State.reg_storeBytes (s : State) (a : Nat) (bs : List Byte) (y : Reg) :
    (s.storeBytes a bs).reg y = s.reg y := rfl
@[simp] theorem State.reg_setStack (s : State) (e : Vector Word 16) (n : Fin 17) (y : Reg) :
    (s.setStack e n).reg y = s.reg y := rfl
@[simp] theorem State.reg_enterFault (s : State) (r : FaultRecord) (y : Reg) : (s.enterFault r).reg y = s.reg y := rfl
@[simp] theorem State.reg_draw_snd (s : State) (y : Reg) : s.draw.2.reg y = s.reg y := rfl
@[simp] theorem State.key_advance (s : State) (k : Key) : s.advance.key k = s.key k := rfl

/-- The flag wins (10_state.md R22): VF holds the flag, and any other destination the result. -/
theorem State.reg_writeWithFlag (s : State) (x y : Reg) (b : Byte) (c : Bool) :
    (s.writeWithFlag x b c).reg y = if y = vF then flagByte c else if y = x then b else s.reg y := by
  simp [State.writeWithFlag]

/-- Outside the registers, a result with its flag changes nothing. -/
theorem State.writeWithFlag_eq (s : State) (x : Reg) (b : Byte) (c : Bool) :
    s.writeWithFlag x b c = { s with v := (s.writeWithFlag x b c).v } := rfl

theorem toNat_flagByte (c : Bool) : (flagByte c).toNat = if c then 1 else 0 := by cases c <;> rfl

@[simp] theorem flagByte_true : flagByte true = 1 := rfl
@[simp] theorem flagByte_false : flagByte false = 0 := rfl

@[simp] theorem carryOut_eq_true (a b : Byte) : carryOut a b = true ↔ 256 ≤ a.toNat + b.toNat := by simp [carryOut]
@[simp] theorem noBorrow_eq_true (a b : Byte) : noBorrow a b = true ↔ b.toNat ≤ a.toNat := by simp [noBorrow]

/-! ### Skips -/

/-- A skip moves PC by 2 when its condition holds, and changes nothing else (41_control_flow.md R120). -/
theorem State.skipIf_eq (s : State) (c : Bool) : s.skipIf c = s.setPc (if c then s.pc + 2 else s.pc) := by
  cases c <;> rfl

/-! ### The stack -/

/-- Everything push can do (10_state.md R28). -/
theorem State.push_cases (s : State) (a : Word) :
    (s.sp = 16 ∧ s.push a = none) ∨
      ∃ h : s.sp.val < 16, s.push a = some (s.setStack (s.stack.set s.sp.val a h) ⟨s.sp.val + 1, by omega⟩) := by
  by_cases h : s.sp.val < 16
  · exact .inr ⟨h, by simp [State.push, h]⟩
  · refine .inl ⟨?_, by simp [State.push, h]⟩
    have := s.sp.isLt
    exact Fin.ext (by simp; omega)

/-- Everything pop can do (R28). -/
theorem State.pop_cases (s : State) :
    (s.sp = 0 ∧ s.pop = none) ∨
      ∃ h : 0 < s.sp.val, s.pop = some (s.stack[s.sp.val - 1]'(by have := s.sp.isLt; omega),
        s.setStack s.stack ⟨s.sp.val - 1, by have := s.sp.isLt; omega⟩) := by
  by_cases h : 0 < s.sp.val
  · exact .inr ⟨h, by simp [State.pop, h]⟩
  · refine .inl ⟨Fin.ext (by simp; omega), by simp [State.pop, h]⟩

/-- A push that answers wrote one entry and raised SP by 1. -/
theorem State.push_eq_some {s u : State} {a : Word} (h : s.push a = some u) :
    ∃ h0 : s.sp.val < 16, u = s.setStack (s.stack.set s.sp.val a h0) ⟨s.sp.val + 1, by omega⟩ := by
  rcases s.push_cases a with ⟨_, h2⟩ | ⟨h0, h2⟩
  · rw [h2] at h; cases h
  · rw [h2] at h; cases h; exact ⟨h0, rfl⟩

/-- A pop that answers read the entry below SP and lowered SP by 1. -/
theorem State.pop_eq_some {s u : State} {a : Word} (h : s.pop = some (a, u)) :
    ∃ h0 : 0 < s.sp.val, a = s.stack[s.sp.val - 1]'(by have := s.sp.isLt; omega) ∧
      u = s.setStack s.stack ⟨s.sp.val - 1, by have := s.sp.isLt; omega⟩ := by
  rcases s.pop_cases with ⟨_, h2⟩ | ⟨h0, h2⟩
  · rw [h2] at h; cases h
  · rw [h2] at h; cases h; exact ⟨h0, rfl, rfl⟩

theorem State.push_eq_none {s : State} {a : Word} : s.push a = none ↔ s.sp = 16 := by
  rcases s.push_cases a with ⟨h1, h2⟩ | ⟨h0, h2⟩
  · simp [h1, h2]
  · rw [h2]
    simp only [reduceCtorEq, false_iff]
    intro h
    rw [h] at h0
    exact absurd h0 (by decide)

theorem State.pop_eq_none {s : State} : s.pop = none ↔ s.sp = 0 := by
  rcases s.pop_cases with ⟨h1, h2⟩ | ⟨h0, h2⟩
  · simp [h1, h2]
  · rw [h2]
    simp only [reduceCtorEq, false_iff]
    intro h
    rw [h] at h0
    exact absurd h0 (by decide)

/-! ### Operands -/

@[simp] theorem memAtI_advance (s : State) (k : Nat) : memAtI s.advance k = memAtI s k := rfl

theorem toNat_addrOperand (addr : Addr) : (addrOperand addr).toNat = addr.toNat := by
  have := addr.isLt
  simp [addrOperand]; omega

theorem toNat_offsetTarget (addr : Addr) (s : State) : (offsetTarget addr s).toNat = addr.toNat + (s.reg 0).toNat := by
  have := addr.isLt; have := (s.reg 0).isLt
  simp [offsetTarget, addrOperand]; omega

theorem toNat_glyphAddr (b : Byte) : (glyphAddr b).toNat = 5 * b.toNat := by
  have := b.isLt
  simp [glyphAddr]; omega

@[simp] theorem length_regsUpTo (x : Reg) (s : State) : (regsUpTo x s).length = x.val + 1 := by
  have := x.isLt
  simp [regsUpTo]

theorem getElem_regsUpTo (x : Reg) (s : State) (k : Nat) (h : k < (regsUpTo x s).length) :
    (regsUpTo x s)[k] = s.reg ⟨k, by have := x.isLt; simp at h; omega⟩ := by
  simp [regsUpTo, State.reg]

@[simp] theorem State.reg_loadRegs (s : State) (x y : Reg) :
    (s.loadRegs x).reg y = if y ≤ x then s.mem.read (memAtI s y.val) else s.reg y := by
  simp [State.loadRegs, State.reg]

@[simp] theorem length_bcdDigits (b : Byte) : (bcdDigits b).length = 3 := rfl

theorem keyOperand_eq_some (b : Byte) (k : Key) : keyOperand b = some k ↔ b.toNat = k.val := by
  have := k.isLt
  simp only [keyOperand, Option.dite_none_right_eq_some, Option.some.injEq, Fin.ext_iff]
  exact ⟨fun ⟨_, h⟩ => h, fun h => ⟨by omega, h⟩⟩

theorem keyOperand_eq_none (b : Byte) : keyOperand b = none ↔ 15 < b.toNat := by
  simp only [keyOperand, dite_eq_right_iff, reduceCtorEq, imp_false]; omega

/-- The key-wait's scan finds nothing exactly when no key is pressed (44_timers_keys.md R193). -/
theorem lowestPressed_eq_none (s : State) : lowestPressed s = none ↔ ∀ k, s.key k = false := by
  simp [lowestPressed]

/-- What the scan finds is pressed, and every lower key is released. -/
theorem lowestPressed_eq_some (s : State) (k : Key) :
    lowestPressed s = some k ↔ s.key k = true ∧ ∀ j, j < k → s.key j = false := by
  have hsorted : (List.finRange 16).Pairwise (· < ·) := List.pairwise_lt_finRange 16
  unfold lowestPressed
  rw [List.find?_eq_some_iff_append]
  constructor
  · rintro ⟨hk, as, bs, hl, hall⟩
    refine ⟨hk, fun j hj => ?_⟩
    have hjm : j ∈ as ++ k :: bs := hl ▸ List.mem_finRange j
    rw [hl] at hsorted
    rcases List.mem_append.1 hjm with h | h
    · simpa using hall j h
    · rcases List.mem_cons.1 h with rfl | h
      · exact absurd hj (lt_irrefl _)
      · have := (List.pairwise_cons.1 (List.pairwise_append.1 hsorted).2.1).1 j h
        exact absurd hj (lt_asymm this)
  · rintro ⟨hk, hlow⟩
    obtain ⟨as, bs, hl⟩ := List.append_of_mem (List.mem_finRange k)
    refine ⟨hk, as, bs, hl, fun j hj => ?_⟩
    rw [hl] at hsorted
    have := (List.pairwise_append.1 hsorted).2.2 j hj k (by simp)
    simp [hlow j this]

theorem imageFits_eq_true (image : List Byte) : imageFits image = true ↔ image.length ≤ 3584 := by
  simp only [imageFits, Config.progStart, Config.memSize, decide_eq_true_eq]; omega

/-! ### Fetch and faults -/

/-- The fetch succeeds exactly when both bytes exist (30_encoding.md R77). -/
theorem fetch_of_lt {s : State} (h : s.pc.toNat < 4095) :
    fetch s = .ok (wordOfBytes (s.mem.read s.pc.toNat) (s.mem.read (s.pc.toNat + 1))) := by
  have : firstOutOfBounds s.pc.toNat 2 = none :=
    firstOutOfBounds_eq_none.2 (.inr (by show s.pc.toNat + 2 ≤ 4096; omega))
  simp [fetch, this]

/-- The address a failed fetch reports: PC's own, or that after it when only that one does not exist. -/
theorem fetch_of_ge {s : State} (h : 4095 ≤ s.pc.toNat) : fetch s = .error (max s.pc.toNat 4096) := by
  have : firstOutOfBounds s.pc.toNat 2 = some (max s.pc.toNat 4096) :=
    firstOutOfBounds_eq_some.2 ⟨by omega, by show 4096 < s.pc.toNat + 2; omega, rfl⟩
  simp [fetch, this]

/-- Everything a fetch can do. -/
theorem fetch_cases (s : State) :
    (4095 ≤ s.pc.toNat ∧ fetch s = .error (max s.pc.toNat 4096)) ∨
      (s.pc.toNat < 4095 ∧
        fetch s = .ok (wordOfBytes (s.mem.read s.pc.toNat) (s.mem.read (s.pc.toNat + 1)))) := by
  rcases Nat.lt_or_ge s.pc.toNat 4095 with h | h
  · exact .inr ⟨h, fetch_of_lt h⟩
  · exact .inl ⟨h, fetch_of_ge h⟩

/-- Taking a fault answers the state before the transaction with the record set (60_exceptions.md R216). -/
theorem faultAt_eq (i : Instr) (s : State) (kind : FaultKind) (info : FaultInfo) :
    faultAt i s kind info =
      .next (s.enterFault { kind := kind, ipc := some s.pc, word := some (encode i), info := info }) := rfl

end Sys2Proof.Machine
end

