-- ==== Sys2Proof/Laws/Display.lean ====
section
/-! SUPPORT. What the blit engine does (40_display.md R102): each pixel is XORed with the sprite, and the hit is a set
bit on a lit pixel. -/

namespace Sys2Proof.Machine

theorem Framebuffer.pixel_toggle (f : Framebuffer) (x y x' y' : Nat) :
    (f.toggle x y).pixel x' y' =
      if x' % 64 = x % 64 ∧ y' % 32 = y % 32 then !f.pixel x' y' else f.pixel x' y' := by
  simp only [Framebuffer.toggle, Framebuffer.pixel, Vector.getElem_set]
  by_cases hy : y % 32 = y' % 32
  · by_cases hx : x % 64 = x' % 64
    · simp [hx, hy]
    · simp [hy, hx, Ne.symm hx]
  · simp [hy, Ne.symm hy]

/-- Coordinates wrap (40_display.md R100). -/
theorem Framebuffer.pixel_mod (f : Framebuffer) (x y : Nat) : f.pixel (x % 64) (y % 32) = f.pixel x y := by
  simp [Framebuffer.pixel]

theorem Framebuffer.pixel_congr (f : Framebuffer) {x y x' y' : Nat} (hx : x % 64 = x' % 64) (hy : y % 32 = y' % 32) :
    f.pixel x y = f.pixel x' y' := by
  rw [← f.pixel_mod x y, ← f.pixel_mod x' y', hx, hy]

/-- Framebuffers that show alike are equal. -/
theorem Framebuffer.ext_of_pixel {f g : Framebuffer} (h : ∀ x y, x < 64 → y < 32 → f.pixel x y = g.pixel x y) : f = g := by
  refine Vector.ext fun y hy => Vector.ext fun x hx => ?_
  have := h x y hx hy
  simpa [Framebuffer.pixel, Nat.mod_eq_of_lt hx, Nat.mod_eq_of_lt hy] using this

@[simp] theorem Framebuffer.pixel_blank (x y : Nat) : Framebuffer.blank.pixel x y = false := by
  simp [Framebuffer.blank, Framebuffer.pixel]

/-- The sprite column that falls on screen column x, counted from the origin column with wrap. -/
abbrev colFrom (px x : Nat) : Nat := (x + 64 - px % 64) % 64

/-- The sprite row that falls on screen row y. -/
abbrev rowFrom (py y : Nat) : Nat := (y + 32 - py % 32) % 32

theorem colFrom_eq_iff {px x c : Nat} (hc : c < 64) : x % 64 = (px + c) % 64 ↔ colFrom px x = c := by
  unfold colFrom; omega

theorem rowFrom_eq_iff {py y r : Nat} (hr : r < 32) : y % 32 = (py + r) % 32 ↔ rowFrom py y = r := by
  unfold rowFrom; omega

theorem blitBit_pixel (b : Byte) (px py c : Nat) (hc : c < 64) (acc : Framebuffer × Bool) (x y : Nat) :
    (blitBit b px py acc c).1.pixel x y =
      (acc.1.pixel x y ^^ (decide (y % 32 = py % 32) && decide (colFrom px x = c) && spriteBit b c)) := by
  unfold blitBit
  have h := colFrom_eq_iff (px := px) (x := x) hc
  split
  · next hb =>
    simp only [Framebuffer.pixel_toggle, h, hb]
    by_cases h1 : colFrom px x = c <;> by_cases h2 : y % 32 = py % 32 <;> simp [h1, h2]
  · next hb => simp [hb]

theorem blitBit_hit (b : Byte) (px py c : Nat) (acc : Framebuffer × Bool) :
    (blitBit b px py acc c).2 = (acc.2 || (spriteBit b c && acc.1.pixel (px + c) py)) := by
  unfold blitBit
  split <;> simp_all

/-- The first k columns of a row. -/
theorem blitCols_spec (b : Byte) (px py : Nat) (acc : Framebuffer × Bool) (k : Nat) (hk : k ≤ 64) :
    (∀ x y, ((List.range k).foldl (blitBit b px py) acc).1.pixel x y =
      (acc.1.pixel x y ^^ (decide (y % 32 = py % 32) && decide (colFrom px x < k) && spriteBit b (colFrom px x)))) ∧
    (((List.range k).foldl (blitBit b px py) acc).2 = true ↔
      acc.2 = true ∨ ∃ c < k, spriteBit b c = true ∧ acc.1.pixel (px + c) py = true) := by
  induction k with
  | zero => simp
  | succ k ih =>
    obtain ⟨hp, hh⟩ := ih (by omega)
    rw [List.range_succ, List.foldl_append, List.foldl_cons, List.foldl_nil]
    refine ⟨fun x y => ?_, ?_⟩
    · rw [blitBit_pixel _ _ _ _ (by omega), hp]
      by_cases h1 : colFrom px x = k
      · have h3 : colFrom px x < k + 1 := by omega
        have h4 : ¬ colFrom px x < k := by omega
        simp [h1]
      · have h3 : (colFrom px x < k + 1) ↔ colFrom px x < k := by omega
        simp [h1, h3]
    · rw [blitBit_hit]
      have hcol : colFrom px (px + k) = k := (colFrom_eq_iff (by omega)).1 rfl
      rw [Bool.or_eq_true, hh, Bool.and_eq_true, hp, hcol]
      simp only [lt_irrefl, decide_false, Bool.and_false, Bool.false_and, Bool.xor_false]
      constructor
      · rintro ((h | ⟨c, hc, h⟩) | h)
        · exact .inl h
        · exact .inr ⟨c, by omega, h⟩
        · exact .inr ⟨k, by omega, h⟩
      · rintro (h | ⟨c, hc, h⟩)
        · exact .inl (.inl h)
        · rcases Nat.lt_or_ge c k with h2 | h2
          · exact .inl (.inr ⟨c, h2, h⟩)
          · have : c = k := by omega
            exact .inr (this ▸ h)

/-- The first k rows of a sprite. -/
theorem blitRows_spec (m : Memory) (base px py : Nat) (f : Framebuffer) (k : Nat) (hk : k ≤ 32) :
    (∀ x y, (blit m base k px py f).1.pixel x y = (f.pixel x y ^^ spriteCovers m base k px py x y)) ∧
    ((blit m base k px py f).2 = true ↔
      ∃ r < k, ∃ c < 8, spriteBit (m.read (base + r)) c = true ∧ f.pixel (px + c) (py + r) = true) := by
  induction k with
  | zero => simp [blit, spriteCovers]
  | succ k ih =>
    obtain ⟨hp, hh⟩ := ih (by omega)
    have hstep : blit m base (k + 1) px py f =
        blitRow (m.read (base + k)) px (py + k) (blit m base k px py f) := by
      simp [blit, List.range_succ, List.foldl_append]
    obtain ⟨rp, rh⟩ := blitCols_spec (m.read (base + k)) px (py + k) (blit m base k px py f) 8 (by omega)
    rw [hstep, blitRow]
    refine ⟨fun x y => ?_, ?_⟩
    · rw [rp, hp]
      have hrow := rowFrom_eq_iff (py := py) (y := y) (r := k) (by omega)
      simp only [spriteCovers, spriteBit]
      by_cases h1 : rowFrom py y = k
      · simp [hrow, h1]
      · have h3 : (rowFrom py y < k + 1) ↔ rowFrom py y < k := by omega
        simp [hrow, h1, h3]
    · rw [rh, hh]
      have hrow : ∀ c, spriteCovers m base k px py (px + c) (py + k) = false := by
        intro c
        have : rowFrom py (py + k) = k := (rowFrom_eq_iff (by omega)).1 rfl
        simp only [rowFrom] at this
        simp [spriteCovers, this]
      simp only [hp, hrow, Bool.xor_false]
      constructor
      · rintro (⟨r, hr, h⟩ | ⟨c, hc, h⟩)
        · exact ⟨r, by omega, h⟩
        · exact ⟨k, by omega, c, hc, h⟩
      · rintro ⟨r, hr, h⟩
        rcases Nat.lt_or_ge r k with h2 | h2
        · exact .inl ⟨r, h2, h⟩
        · have : r = k := by omega
          subst this
          exact .inr h

/-- Every pixel after a blit is the exclusive or of what it was and the sprite (R102). -/
theorem blit_pixel (m : Memory) (base n px py : Nat) (f : Framebuffer) (hn : n ≤ 32) (x y : Nat) :
    (blit m base n px py f).1.pixel x y = (f.pixel x y ^^ spriteCovers m base n px py x y) :=
  (blitRows_spec m base px py f n hn).1 x y

/-- The blit hits exactly when the sprite covers a lit pixel of the screen (R102). -/
theorem blit_hit (m : Memory) (base n px py : Nat) (f : Framebuffer) (hn : n ≤ 32) :
    (blit m base n px py f).2 = true ↔
      ∃ x < 64, ∃ y < 32, spriteCovers m base n px py x y = true ∧ f.pixel x y = true := by
  rw [(blitRows_spec m base px py f n hn).2]
  constructor
  · rintro ⟨r, hr, c, hc, hb, hl⟩
    refine ⟨(px + c) % 64, Nat.mod_lt _ (by omega), (py + r) % 32, Nat.mod_lt _ (by omega), ?_, ?_⟩
    · have h1 : (((px + c) % 64) + 64 - px % 64) % 64 = c := by omega
      have h2 : (((py + r) % 32) + 32 - py % 32) % 32 = r := by omega
      simp only [spriteBit] at hb
      simp [spriteCovers, h1, h2, hc, hr, hb]
    · rw [Framebuffer.pixel_mod]; exact hl
  · rintro ⟨x, hx, y, hy, hs, hl⟩
    simp only [spriteCovers, Bool.and_eq_true, decide_eq_true_eq] at hs
    refine ⟨_, hs.1.2, _, hs.1.1, hs.2, ?_⟩
    rw [← hl]
    exact f.pixel_congr (by omega) (by omega)

end Sys2Proof.Machine
end

