-- ==== Sys2Proof/Laws/PerInstr.lean ====
section
/-! SUPPORT. Families of lemmas with one lemma per instruction. OperandsFit: every instruction is well-formed, since its
operand types admit no other (10_state.md R21, 30_encoding.md R72). -/

namespace Sys2Proof.Laws

/-- Every operand of the instruction fits its field. -/
def OperandsFit.Statement (i : Instr) : Prop := i.wellFormed = true

theorem x_fits (x : Reg) : Operand.wellFormed ⟨.x, x.val⟩ = true := by
  exact decide_eq_true x.isLt
theorem y_fits (y : Reg) : Operand.wellFormed ⟨.y, y.val⟩ = true := by
  exact decide_eq_true y.isLt
theorem n_fits (n : Fin 16) : Operand.wellFormed ⟨.n, n.val⟩ = true := by
  exact decide_eq_true n.isLt
theorem kk_fits (kk : Byte) : Operand.wellFormed ⟨.kk, kk.toNat⟩ = true := by
  exact decide_eq_true kk.isLt
theorem addr_fits (addr : Addr) : Operand.wellFormed ⟨.addr, addr.toNat⟩ = true := by
  exact decide_eq_true addr.isLt

theorem OperandsFit.cls : OperandsFit.Statement .cls := by
  simp [OperandsFit.Statement, Instr.wellFormed, Instr.operands]
theorem OperandsFit.ret : OperandsFit.Statement .ret := by
  simp [OperandsFit.Statement, Instr.wellFormed, Instr.operands]
theorem OperandsFit.jp (addr : Addr) : OperandsFit.Statement (.jp addr) := by
  simp [OperandsFit.Statement, Instr.wellFormed, Instr.operands, addr_fits]
theorem OperandsFit.call (addr : Addr) : OperandsFit.Statement (.call addr) := by
  simp [OperandsFit.Statement, Instr.wellFormed, Instr.operands, addr_fits]
theorem OperandsFit.seImm (x : Reg) (kk : Byte) : OperandsFit.Statement (.seImm x kk) := by
  simp [OperandsFit.Statement, Instr.wellFormed, Instr.operands, x_fits, kk_fits]
theorem OperandsFit.sneImm (x : Reg) (kk : Byte) : OperandsFit.Statement (.sneImm x kk) := by
  simp [OperandsFit.Statement, Instr.wellFormed, Instr.operands, x_fits, kk_fits]
theorem OperandsFit.seReg (x y : Reg) : OperandsFit.Statement (.seReg x y) := by
  simp [OperandsFit.Statement, Instr.wellFormed, Instr.operands, x_fits, y_fits]
theorem OperandsFit.ldImm (x : Reg) (kk : Byte) : OperandsFit.Statement (.ldImm x kk) := by
  simp [OperandsFit.Statement, Instr.wellFormed, Instr.operands, x_fits, kk_fits]
theorem OperandsFit.addImm (x : Reg) (kk : Byte) : OperandsFit.Statement (.addImm x kk) := by
  simp [OperandsFit.Statement, Instr.wellFormed, Instr.operands, x_fits, kk_fits]
theorem OperandsFit.ldReg (x y : Reg) : OperandsFit.Statement (.ldReg x y) := by
  simp [OperandsFit.Statement, Instr.wellFormed, Instr.operands, x_fits, y_fits]
theorem OperandsFit.or (x y : Reg) : OperandsFit.Statement (.or x y) := by
  simp [OperandsFit.Statement, Instr.wellFormed, Instr.operands, x_fits, y_fits]
theorem OperandsFit.and (x y : Reg) : OperandsFit.Statement (.and x y) := by
  simp [OperandsFit.Statement, Instr.wellFormed, Instr.operands, x_fits, y_fits]
theorem OperandsFit.xor (x y : Reg) : OperandsFit.Statement (.xor x y) := by
  simp [OperandsFit.Statement, Instr.wellFormed, Instr.operands, x_fits, y_fits]
theorem OperandsFit.addReg (x y : Reg) : OperandsFit.Statement (.addReg x y) := by
  simp [OperandsFit.Statement, Instr.wellFormed, Instr.operands, x_fits, y_fits]
theorem OperandsFit.sub (x y : Reg) : OperandsFit.Statement (.sub x y) := by
  simp [OperandsFit.Statement, Instr.wellFormed, Instr.operands, x_fits, y_fits]
theorem OperandsFit.shr (x y : Reg) : OperandsFit.Statement (.shr x y) := by
  simp [OperandsFit.Statement, Instr.wellFormed, Instr.operands, x_fits, y_fits]
theorem OperandsFit.subn (x y : Reg) : OperandsFit.Statement (.subn x y) := by
  simp [OperandsFit.Statement, Instr.wellFormed, Instr.operands, x_fits, y_fits]
theorem OperandsFit.shl (x y : Reg) : OperandsFit.Statement (.shl x y) := by
  simp [OperandsFit.Statement, Instr.wellFormed, Instr.operands, x_fits, y_fits]
theorem OperandsFit.sneReg (x y : Reg) : OperandsFit.Statement (.sneReg x y) := by
  simp [OperandsFit.Statement, Instr.wellFormed, Instr.operands, x_fits, y_fits]
theorem OperandsFit.ldI (addr : Addr) : OperandsFit.Statement (.ldI addr) := by
  simp [OperandsFit.Statement, Instr.wellFormed, Instr.operands, addr_fits]
theorem OperandsFit.jpV0 (addr : Addr) : OperandsFit.Statement (.jpV0 addr) := by
  simp [OperandsFit.Statement, Instr.wellFormed, Instr.operands, addr_fits]
theorem OperandsFit.rnd (x : Reg) (kk : Byte) : OperandsFit.Statement (.rnd x kk) := by
  simp [OperandsFit.Statement, Instr.wellFormed, Instr.operands, x_fits, kk_fits]
theorem OperandsFit.drw (x y : Reg) (n : Fin 16) : OperandsFit.Statement (.drw x y n) := by
  simp [OperandsFit.Statement, Instr.wellFormed, Instr.operands, x_fits, y_fits, n_fits]
theorem OperandsFit.skp (x : Reg) : OperandsFit.Statement (.skp x) := by
  simp [OperandsFit.Statement, Instr.wellFormed, Instr.operands, x_fits]
theorem OperandsFit.sknp (x : Reg) : OperandsFit.Statement (.sknp x) := by
  simp [OperandsFit.Statement, Instr.wellFormed, Instr.operands, x_fits]
theorem OperandsFit.ldVxDt (x : Reg) : OperandsFit.Statement (.ldVxDt x) := by
  simp [OperandsFit.Statement, Instr.wellFormed, Instr.operands, x_fits]
theorem OperandsFit.ldVxK (x : Reg) : OperandsFit.Statement (.ldVxK x) := by
  simp [OperandsFit.Statement, Instr.wellFormed, Instr.operands, x_fits]
theorem OperandsFit.ldDtVx (x : Reg) : OperandsFit.Statement (.ldDtVx x) := by
  simp [OperandsFit.Statement, Instr.wellFormed, Instr.operands, x_fits]
theorem OperandsFit.ldStVx (x : Reg) : OperandsFit.Statement (.ldStVx x) := by
  simp [OperandsFit.Statement, Instr.wellFormed, Instr.operands, x_fits]
theorem OperandsFit.addI (x : Reg) : OperandsFit.Statement (.addI x) := by
  simp [OperandsFit.Statement, Instr.wellFormed, Instr.operands, x_fits]
theorem OperandsFit.ldF (x : Reg) : OperandsFit.Statement (.ldF x) := by
  simp [OperandsFit.Statement, Instr.wellFormed, Instr.operands, x_fits]
theorem OperandsFit.ldB (x : Reg) : OperandsFit.Statement (.ldB x) := by
  simp [OperandsFit.Statement, Instr.wellFormed, Instr.operands, x_fits]
theorem OperandsFit.ldMemVx (x : Reg) : OperandsFit.Statement (.ldMemVx x) := by
  simp [OperandsFit.Statement, Instr.wellFormed, Instr.operands, x_fits]
theorem OperandsFit.ldVxMem (x : Reg) : OperandsFit.Statement (.ldVxMem x) := by
  simp [OperandsFit.Statement, Instr.wellFormed, Instr.operands, x_fits]

end Sys2Proof.Laws
end

