-- ==== Sys2Proof/Laws/Step.lean ====
section
/-! SUPPORT. Everything a step can do, once (30_encoding.md R77); later proofs cite it instead of unfolding step. -/

namespace Sys2Proof.Machine

/-- A step of a core that is not halted takes a fetch fault, the halt sentinel, an illegal word, or runs the
instruction decoded. -/
theorem step_cases {s : State} (hf : s.fault = none) :
    (∃ a, fetch s = .error a ∧ step s = takeFault s .outOfBounds none (.addr a)) ∨
    (∃ w, fetch s = .ok w ∧ isHaltSentinel s.params w = true ∧ step s = takeFault s .halt (some w) .none) ∨
    (∃ w, fetch s = .ok w ∧ isHaltSentinel s.params w = false ∧ decodeWord w = .error (.illegal w) ∧
      step s = takeFault s .illegalInstruction (some w) .none) ∨
    (∃ w i, fetch s = .ok w ∧ isHaltSentinel s.params w = false ∧ decodeWord w = .ok i ∧ step s = exec i s) := by
  unfold step
  rw [hf]
  cases hfe : fetch s with
  | error a => exact .inl ⟨a, rfl, rfl⟩
  | ok w =>
    cases hh : isHaltSentinel s.params w with
    | true => exact .inr (.inl ⟨w, rfl, hh, by simp [hh]⟩)
    | false =>
      cases hd : decodeWord w with
      | error e => exact .inr (.inr (.inl ⟨w, rfl, hh, by rw [decodeWord_error hd] at hd; exact hd, by simp [hh, hd]⟩))
      | ok i => exact .inr (.inr (.inr ⟨w, i, rfl, hh, hd, by simp [hh, hd]⟩))

/-- A halted core has no step (60_exceptions.md R232). -/
theorem step_halted {s : State} {r : FaultRecord} (hf : s.fault = some r) : step s = .fault (.halted r) := by
  simp [step, hf]

/-- A step that answers a next state started from a core that was not halted. -/
theorem fault_none_of_step {s t : State} (h : step s = .next t) : s.fault = none := by
  cases hf : s.fault with
  | none => rfl
  | some r => rw [step_halted hf] at h; cases h

/-- The halt sentinel is the all-ones word, which is no instruction (30_encoding.md R78, R79). -/
theorem isHaltSentinel_eq_true {p : Config.Params} {w : Word} :
    isHaltSentinel p w = true ↔ p.haltSentinel = true ∧ w = 0xFFFF := by
  simp [isHaltSentinel]

theorem not_haltSentinel_of_decode {p : Config.Params} {w : Word} {i : Instr} (h : decodeWord w = .ok i) :
    isHaltSentinel p w = false := by
  cases hh : isHaltSentinel p w with
  | false => rfl
  | true =>
    rw [(isHaltSentinel_eq_true.1 hh).2, decodeWord_allOnes] at h
    cases h

/-- The instruction a step runs is the next instruction. -/
theorem nextInstr_eq_some {s : State} {i : Instr} :
    nextInstr s = some i ↔ ∃ w, fetch s = .ok w ∧ decodeWord w = .ok i := by
  unfold nextInstr
  cases hf : fetch s with
  | error a => simp
  | ok w =>
    cases hd : decodeWord w with
    | error e => simp [hd, Except.toOption]
    | ok j => simp [hd, Except.toOption]

/-- What a step did that answered a next state: a fetch fault, the halt sentinel, an illegal word, or the instruction. -/
theorem step_inversion {s t : State} (h : step s = .next t) :
    s.fault = none ∧
    ((4095 ≤ s.pc.toNat ∧
        t = s.enterFault ⟨.outOfBounds, some s.pc, none, .addr (max s.pc.toNat 4096)⟩) ∨
      (fetch s = .ok 0xFFFF ∧ s.params.haltSentinel = true ∧
        t = s.enterFault ⟨.halt, some s.pc, some 0xFFFF, .none⟩) ∨
      (∃ w, fetch s = .ok w ∧ nextInstr s = none ∧
        t = s.enterFault ⟨.illegalInstruction, some s.pc, some w, .none⟩) ∨
      (s.pc.toNat < 4095 ∧ ∃ i, nextInstr s = some i ∧ exec i s = .next t)) := by
  have hf := fault_none_of_step h
  refine ⟨hf, ?_⟩
  rcases step_cases hf with ⟨a, h1, h2⟩ | ⟨w, h1, h2, h3⟩ | ⟨w, h1, h2, h3, h4⟩ | ⟨w, i, h1, h2, h3, h4⟩
  · rcases fetch_cases s with ⟨h5, h6⟩ | ⟨h5, h6⟩
    · rw [h6] at h1; cases h1
      rw [h2] at h; cases h
      exact .inl ⟨h5, rfl⟩
    · rw [h6] at h1; cases h1
  · obtain ⟨h4, rfl⟩ := isHaltSentinel_eq_true.1 h2
    rw [h3] at h; cases h
    exact .inr (.inl ⟨h1, h4, rfl⟩)
  · rw [h4] at h; cases h
    exact .inr (.inr (.inl ⟨w, h1, by simp [nextInstr, h1, h3, Except.toOption], rfl⟩))
  · refine .inr (.inr (.inr ⟨?_, i, nextInstr_eq_some.2 ⟨w, h1, h3⟩, h4 ▸ h⟩))
    rcases fetch_cases s with ⟨h5, h6⟩ | ⟨h5, h6⟩
    · rw [h6] at h1; cases h1
    · exact h5

/-- What an instruction did that answered a next state: it took a fault, under its own condition, or it ran, and then
the core is started and neither the fault field nor the keys nor the parameters changed. -/
theorem exec_cases {i : Instr} {s t : State} (h : exec i s = .next t) :
    (∃ r, t = s.enterFault r ∧ r.ipc = some s.pc ∧ r.word = some (encode i) ∧
      match r.kind with
      | .illegalInstruction => r.info = .none ∧ s.params.drawZeroRows = .fault ∧ ∃ x y, i = .drw x y 0
      | .outOfBounds => r.info = .addr (max s.i.toNat 4096) ∧
          ((∃ x y n, i = .drw x y n ∧ 4096 < s.i.toNat + n.val) ∨ (∃ x, i = .ldB x ∧ 4096 < s.i.toNat + 3) ∨
            ∃ x, (i = .ldMemVx x ∨ i = .ldVxMem x) ∧ 4096 < s.i.toNat + x.val + 1)
      | .stackOverflow => r.info = .none ∧ s.sp = 16 ∧ ∃ addr, i = .call addr
      | .stackUnderflow => r.info = .none ∧ s.sp = 0 ∧ i = .ret
      | .keyIndexOutOfRange => ∃ x, (i = .skp x ∨ i = .sknp x) ∧ 15 < (s.reg x).toNat ∧ r.info = .value (s.reg x)
      | .halt => False
      | .malformedImage => False) ∨
    (t.fault = s.fault ∧ t.started = true ∧ t.params = s.params ∧ t.keys = s.keys) := by
  cases i <;> simp only [exec, execCls, execDrw, execRet, execJp, execCall, execSeImm, execSneImm, execSeReg, execSneReg,
    execJpV0, execLdImm, execAddImm, execLdReg, execOr, execAnd, execXor, execAddReg, execSub, execShr, execSubn,
    execShl, execRnd, execLdI, execAddI, execLdF, execLdB, execLdMemVx, execLdVxMem, execSkp, execSknp, execLdVxDt,
    execLdVxK, execLdDtVx, execLdStVx, faultAt, takeFault] at h
  all_goals repeat' (split at h)
  all_goals simp only [Host.Outcome.next.injEq] at h; subst h
  all_goals first
    | (right; simp [State.writeWithFlag, State.skipIf_eq]; done)
    | skip
  · next hp => exact .inl ⟨_, rfl, rfl, rfl, rfl, (State.pop_eq_none (s := s.advance)).1 hp, rfl⟩
  · next hp =>
    obtain ⟨_, _, rfl⟩ := State.pop_eq_some hp
    exact .inr (by simp)
  · next hp => exact .inl ⟨_, rfl, rfl, rfl, rfl, (State.push_eq_none (s := s.advance)).1 hp, _, rfl⟩
  · next hp =>
    obtain ⟨_, rfl⟩ := State.push_eq_some hp
    exact .inr (by simp)
  · next hp =>
    obtain ⟨rfl, h2⟩ := hp
    exact .inl ⟨_, rfl, rfl, rfl, rfl, h2, _, _, rfl⟩
  · next hp =>
    obtain ⟨h1, h2, rfl⟩ := firstOutOfBounds_eq_some.1 hp
    exact .inl ⟨_, rfl, rfl, rfl, rfl, .inl ⟨_, _, _, rfl, h2⟩⟩
  · next hp => exact .inl ⟨_, rfl, rfl, rfl, _, .inl rfl, (keyOperand_eq_none _).1 hp, rfl⟩
  · next hp => exact .inl ⟨_, rfl, rfl, rfl, _, .inr rfl, (keyOperand_eq_none _).1 hp, rfl⟩
  · next hp =>
    obtain ⟨h1, h2, rfl⟩ := firstOutOfBounds_eq_some.1 hp
    exact .inl ⟨_, rfl, rfl, rfl, rfl, .inr (.inl ⟨_, rfl, h2⟩)⟩
  · next hp =>
    obtain ⟨h1, h2, rfl⟩ := firstOutOfBounds_eq_some.1 hp
    exact .inl ⟨_, rfl, rfl, rfl, rfl, .inr (.inr ⟨_, .inl rfl, by simp only [memAtI] at h2; omega⟩)⟩
  · next hp =>
    obtain ⟨h1, h2, rfl⟩ := firstOutOfBounds_eq_some.1 hp
    exact .inl ⟨_, rfl, rfl, rfl, rfl, .inr (.inr ⟨_, .inr rfl, by simp only [memAtI] at h2; omega⟩)⟩

end Sys2Proof.Machine
end

