-- ==== Sys2Proof/Tests/Slice0.lean ====
section
/-! SUPPORT. The model's own tests. Expected results come from 95_test_vectors.md (E<n> and T<n>) or from the patterns of
30_encoding.md R75. Then one witness or more for every obligation that has a hypothesis: states and operands that meet
all its hypotheses together. -/

namespace Sys2Proof.Tests

open Sys2Proof.Machine

/-! ### Building small states and reading a step's result -/

/-- The core after reset with the word w at PC, as the host places it. -/
def loaded (w : Nat) : State := State.reset.withFetchWord 16 w

/-- General registers set. -/
def withRegs (s : State) (l : List (Reg × Byte)) : State := l.foldl (fun u p => u.setReg p.1 p.2) s

/-- Pixels lit on a blank screen. -/
def withLit (s : State) (l : List (Nat × Nat)) : State :=
  s.setFb (l.foldl (fun f p => f.toggle p.1 p.2) Framebuffer.blank)

/-- Keys pressed. -/
def withKeys (s : State) (l : List Key) : State :=
  l.foldl (fun u k => { u with keys := u.keys.set k.val true k.isLt }) s

/-- The outcome is a next state with the property p. -/
def ends (r : StepResult) (p : State → Bool) : Bool :=
  match r with
  | .next t => p t
  | .fault _ => false
  | .refused _ => false

/-- Pixels that are lit on the screen, and pixels that are not. -/
def shows (s : State) (lit unlit : List (Nat × Nat)) : Bool :=
  lit.all (fun p => s.fb.pixel p.1 p.2) && unlit.all (fun p => !s.fb.pixel p.1 p.2)

/-! ### WellFormed: an ill-formed term for each check, refused -/

theorem test_x_too_large : Operand.wellFormed ⟨.x, 16⟩ = false := by decide
theorem test_x_largest : Operand.wellFormed ⟨.x, 15⟩ = true := by decide
theorem test_y_too_large : Operand.wellFormed ⟨.y, 16⟩ = false := by decide
theorem test_y_largest : Operand.wellFormed ⟨.y, 15⟩ = true := by decide
theorem test_n_too_large : Operand.wellFormed ⟨.n, 16⟩ = false := by decide
theorem test_n_largest : Operand.wellFormed ⟨.n, 15⟩ = true := by decide
theorem test_kk_too_large : Operand.wellFormed ⟨.kk, 256⟩ = false := by decide
theorem test_kk_largest : Operand.wellFormed ⟨.kk, 255⟩ = true := by decide
theorem test_addr_too_large : Operand.wellFormed ⟨.addr, 4096⟩ = false := by decide
theorem test_addr_largest : Operand.wellFormed ⟨.addr, 4095⟩ = true := by decide
theorem test_drw_operands : (Instr.drw 0xF 0xF 0xF).operands = [⟨.x, 15⟩, ⟨.y, 15⟩, ⟨.n, 15⟩] := by decide
/-- E15: 3584 bytes fit, 3585 do not. -/
theorem test_image_fits : imageFits (List.replicate 3584 0) = true ∧ imageFits (List.replicate 3585 0) = false := by
  constructor <;> (rw [imageFits, List.length_replicate]; decide)

/-! ### Decoding: a word of every row, written from its pattern (30_encoding.md R75) -/

theorem test_decode_cls : decodeWord 0b0000000011100000 = .ok (.cls) := by decide
theorem test_decode_ret : decodeWord 0b0000000011101110 = .ok (.ret) := by decide
theorem test_decode_jp : decodeWord 0b0001111110100111 = .ok (.jp 0xFA7) := by decide
theorem test_decode_call : decodeWord 0b0010001100000001 = .ok (.call 0x301) := by decide
theorem test_decode_seImm : decodeWord 0b0011001101000010 = .ok (.seImm 3 0x42) := by decide
theorem test_decode_sneImm : decodeWord 0b0100111010000001 = .ok (.sneImm 0xE 0x81) := by decide
theorem test_decode_seReg : decodeWord 0b0101000100100000 = .ok (.seReg 1 2) := by decide
theorem test_decode_ldImm : decodeWord 0b0110111110101010 = .ok (.ldImm 0xF 0xAA) := by decide
theorem test_decode_addImm : decodeWord 0b0111100000000001 = .ok (.addImm 8 0x01) := by decide
theorem test_decode_ldReg : decodeWord 0b1000000111100000 = .ok (.ldReg 1 0xE) := by decide
theorem test_decode_or : decodeWord 0b1000001011010001 = .ok (.or 2 0xD) := by decide
theorem test_decode_and : decodeWord 0b1000001111000010 = .ok (.and 3 0xC) := by decide
theorem test_decode_xor : decodeWord 0b1000010010110011 = .ok (.xor 4 0xB) := by decide
theorem test_decode_addReg : decodeWord 0b1000010110100100 = .ok (.addReg 5 0xA) := by decide
theorem test_decode_sub : decodeWord 0b1000011010010101 = .ok (.sub 6 9) := by decide
theorem test_decode_shr : decodeWord 0b1000000010110110 = .ok (.shr 0 0xB) := by decide
theorem test_decode_subn : decodeWord 0b1000011110000111 = .ok (.subn 7 8) := by decide
theorem test_decode_shl : decodeWord 0b1000111100011110 = .ok (.shl 0xF 1) := by decide
theorem test_decode_sneReg : decodeWord 0b1001101001010000 = .ok (.sneReg 0xA 5) := by decide
theorem test_decode_ldI : decodeWord 0b1010001100000000 = .ok (.ldI 0x300) := by decide
theorem test_decode_jpV0 : decodeWord 0b1011111111111111 = .ok (.jpV0 0xFFF) := by decide
theorem test_decode_rnd : decodeWord 0b1100001000001111 = .ok (.rnd 2 0x0F) := by decide
theorem test_decode_drw : decodeWord 0b1101101010110101 = .ok (.drw 0xA 0xB 5) := by decide
theorem test_decode_skp : decodeWord 0b1110000110011110 = .ok (.skp 1) := by decide
theorem test_decode_sknp : decodeWord 0b1110000110100001 = .ok (.sknp 1) := by decide
theorem test_decode_ldVxDt : decodeWord 0b1111001100000111 = .ok (.ldVxDt 3) := by decide
theorem test_decode_ldVxK : decodeWord 0b1111010100001010 = .ok (.ldVxK 5) := by decide
theorem test_decode_ldDtVx : decodeWord 0b1111010100010101 = .ok (.ldDtVx 5) := by decide
theorem test_decode_ldStVx : decodeWord 0b1111101000011000 = .ok (.ldStVx 0xA) := by decide
theorem test_decode_addI : decodeWord 0b1111001000011110 = .ok (.addI 2) := by decide
theorem test_decode_ldF : decodeWord 0b1111110000101001 = .ok (.ldF 0xC) := by decide
theorem test_decode_ldB : decodeWord 0b1111001100110011 = .ok (.ldB 3) := by decide
theorem test_decode_ldMemVx : decodeWord 0b1111111101010101 = .ok (.ldMemVx 0xF) := by decide
theorem test_decode_ldVxMem : decodeWord 0b1111001001100101 = .ok (.ldVxMem 2) := by decide

/-- T1, T2, T4, T6 and T7: words no row matches. -/
theorem test_decode_illegal :
    decodeWord 0x5121 = .error (.illegal 0x5121) ∧ decodeWord 0x0123 = .error (.illegal 0x0123) ∧
    decodeWord 0x8008 = .error (.illegal 0x8008) ∧ decodeWord 0xE09F = .error (.illegal 0xE09F) ∧
    decodeWord 0xF0FF = .error (.illegal 0xF0FF) := by decide
/-- The first byte is the high one (20_memory.md R54), and two bytes are consumed (30_encoding.md R70). -/
theorem test_decode_bytes :
    decodeBytes [0x1F, 0xA7, 0x55] = .ok (.jp 0xFA7, [0x55]) ∧ decodeBytes [0x1F] = .error .truncated := by
  exact ⟨rfl, rfl⟩
theorem test_decode_table_word :
    decodeTableWord 16 0x1FA7 = some (.jp 0xFA7) ∧ decodeTableWord 16 0x0123 = none := by decide
/-- The word is stored high byte first where the next step fetches. -/
theorem test_with_fetch_word :
    (loaded 0x1FA7).mem.read 0x200 = 0x1F ∧ (loaded 0x1FA7).mem.read 0x201 = 0xA7 ∧
    fetch (loaded 0x1FA7) = .ok 0x1FA7 := by
  exact ⟨by decide, by decide, rfl⟩

/-! ### One step of each instruction -/

/-- T130. -/
theorem test_cls :
    ends (step (withLit (withRegs (loaded 0x00E0) [(0xF, 7)]) [(5, 5), (63, 31)]))
      (fun t => shows t [] [(5, 5), (63, 31), (0, 0)] && t.reg 0xF == 7 && t.pc == 0x202) = true := by decide
/-- E7: x = 60 wraps to columns 0 to 3. -/
theorem test_drw_wraps :
    ends (step ((withRegs (loaded 0xD011) [(0, 60)]).setI 0x300 |>.storeBytes 0x300 [0xFF]))
      (fun t => shows t [(60, 0), (63, 0), (0, 0), (3, 0)] [(59, 0), (4, 0), (60, 1), (60, 31)] &&
        t.reg 0xF == 0) = true := by decide
/-- E13: overlapping sprites toggle. -/
theorem test_drw_toggles :
    ends (step ((withLit (loaded 0xD011) [(0, 0), (1, 0), (2, 0), (3, 0)]).setI 0x300 |>.storeBytes 0x300 [0x3C]))
      (fun t => shows t [(0, 0), (1, 0), (4, 0), (5, 0)] [(2, 0), (3, 0), (6, 0)] && t.reg 0xF == 1) = true := by decide
/-- T73. -/
theorem test_ret :
    ends (step { (loaded 0x00EE) with sp := 1, stack := (loaded 0x00EE).stack.set 0 0x206 })
      (fun t => t.pc == 0x206 && t.sp == 0 && t.stack[0] == 0x206) = true := by decide
/-- T74. -/
theorem test_ret_underflow : step (loaded 0x00EE) =
    .next ((loaded 0x00EE).enterFault
      ⟨.stackUnderflow, some 0x200, some 0x00EE, .none⟩) := by exact rfl
/-- T70. -/
theorem test_jp :
    ends (step (loaded 0x1FA7)) (fun t => t.pc == 0xFA7) = true := by decide
/-- T76. -/
theorem test_call :
    ends (step { (loaded 0x2300) with sp := 15 })
      (fun t => t.pc == 0x300 && t.sp == 16 && t.stack[15] == 0x202) = true := by decide
/-- T75. -/
theorem test_call_overflow : step { (loaded 0x2300) with sp := 16 } =
    .next ({ (loaded 0x2300) with sp := 16 }.enterFault
      ⟨.stackOverflow, some 0x200, some 0x2300, .none⟩) := by exact rfl
/-- T77. -/
theorem test_seImm_skips :
    ends (step (withRegs (loaded 0x3342) [(3, 0x42)])) (fun t => t.pc == 0x204) = true := by decide
/-- T78. -/
theorem test_seImm_goes_on :
    ends (step (withRegs (loaded 0x3343) [(3, 0x42)])) (fun t => t.pc == 0x202) = true := by decide
/-- T79. -/
theorem test_sneImm_goes_on :
    ends (step (withRegs (loaded 0x4342) [(3, 0x42)])) (fun t => t.pc == 0x202) = true := by decide
/-- T80. -/
theorem test_sneImm_skips :
    ends (step (withRegs (loaded 0x4343) [(3, 0x42)])) (fun t => t.pc == 0x204) = true := by decide
/-- T81. -/
theorem test_seReg_skips :
    ends (step (withRegs (loaded 0x5120) [(1, 7), (2, 7)])) (fun t => t.pc == 0x204) = true := by decide
/-- T82. -/
theorem test_seReg_goes_on :
    ends (step (withRegs (loaded 0x5120) [(1, 7), (2, 8)])) (fun t => t.pc == 0x202) = true := by decide
/-- T84. -/
theorem test_sneReg_skips :
    ends (step (withRegs (loaded 0x9120) [(1, 7), (2, 8)])) (fun t => t.pc == 0x204) = true := by decide
/-- T85. -/
theorem test_sneReg_goes_on :
    ends (step (loaded 0x9110)) (fun t => t.pc == 0x202) = true := by decide
/-- T88: never reduced modulo 4096. -/
theorem test_jpV0 :
    ends (step (withRegs (loaded 0xBFFF) [(0, 0xFF), (15, 0x01)])) (fun t => t.pc == 0x10FE) = true := by decide
/-- T20. -/
theorem test_ldImm :
    ends (step (loaded 0x6FAA)) (fun t => t.reg 0xF == 0xAA) = true := by decide
/-- T21: no flag. -/
theorem test_addImm :
    ends (step (withRegs (loaded 0x7001) [(0, 0xFF), (0xF, 0x07)]))
      (fun t => t.reg 0 == 0x00 && t.reg 0xF == 0x07) = true := by decide
/-- T23: x = F receives the sum. -/
theorem test_addImm_vF :
    ends (step (withRegs (loaded 0x7FFF) [(0xF, 0x02)])) (fun t => t.reg 0xF == 0x01) = true := by decide
/-- T24. -/
theorem test_ldReg :
    ends (step (withRegs (loaded 0x80F0) [(0xF, 0x5A)])) (fun t => t.reg 0 == 0x5A) = true := by decide
/-- T25. -/
theorem test_or :
    ends (step (withRegs (loaded 0x8011) [(0, 0xF0), (1, 0x0F), (0xF, 1)]))
      (fun t => t.reg 0 == 0xFF && t.reg 0xF == 1) = true := by decide
/-- T26. -/
theorem test_and :
    ends (step (withRegs (loaded 0x8012) [(0, 0xF0), (1, 0x3C), (0xF, 1)]))
      (fun t => t.reg 0 == 0x30 && t.reg 0xF == 1) = true := by decide
/-- T27. -/
theorem test_xor :
    ends (step (withRegs (loaded 0x8013) [(0, 0xF0), (1, 0x3C), (0xF, 1)]))
      (fun t => t.reg 0 == 0xCC && t.reg 0xF == 1) = true := by decide
/-- T34: the flag wins. -/
theorem test_addReg_vF :
    ends (step (withRegs (loaded 0x8F14) [(0xF, 0xFF), (1, 1)])) (fun t => t.reg 0xF == 1) = true := by decide
/-- T36: the operand is VF before the instruction. -/
theorem test_addReg_reads_vF :
    ends (step (withRegs (loaded 0x80F4) [(0, 0x10), (0xF, 1)]))
      (fun t => t.reg 0 == 0x11 && t.reg 0xF == 0) = true := by decide
/-- T37. -/
theorem test_sub_borrow :
    ends (step (withRegs (loaded 0x8015) [(0, 3), (1, 5)]))
      (fun t => t.reg 0 == 0xFE && t.reg 0xF == 0) = true := by decide
/-- T42. -/
theorem test_sub_vF :
    ends (step (withRegs (loaded 0x8F15) [(0xF, 5), (1, 3)])) (fun t => t.reg 0xF == 1) = true := by decide
/-- T10: the y field is ignored. -/
theorem test_shr :
    ends (step (withRegs (loaded 0x80B6) [(0, 4), (0xB, 0xFF), (0xF, 1)]))
      (fun t => t.reg 0 == 2 && t.reg 0xF == 0 && t.reg 0xB == 0xFF) = true := by decide
/-- T52. -/
theorem test_shr_vF :
    ends (step (withRegs (loaded 0x8F06) [(0xF, 3)])) (fun t => t.reg 0xF == 1) = true := by decide
/-- T44. -/
theorem test_subn_borrow :
    ends (step (withRegs (loaded 0x8017) [(0, 5), (1, 3)]))
      (fun t => t.reg 0 == 0xFE && t.reg 0xF == 0) = true := by decide
/-- T46. -/
theorem test_subn_equal :
    ends (step (withRegs (loaded 0x8017) [(0, 7), (1, 7)]))
      (fun t => t.reg 0 == 0 && t.reg 0xF == 1) = true := by decide
/-- T54. -/
theorem test_shl :
    ends (step (withRegs (loaded 0x800E) [(0, 0x81)])) (fun t => t.reg 0 == 2 && t.reg 0xF == 1) = true := by decide
/-- T58. -/
theorem test_shl_vF :
    ends (step (withRegs (loaded 0x8F0E) [(0xF, 0x40)])) (fun t => t.reg 0xF == 0) = true := by decide
/-- T59: whatever the draw, a mask of 0 gives 0. -/
theorem test_rnd_mask_zero : ∃ t, step (loaded 0xC000) = .next t ∧ t.reg 0 = 0 ∧ t.draws = 1 :=
  ⟨_, rfl, BitVec.and_zero, rfl⟩
/-- T60: a mask of 0xFF gives the draw. -/
theorem test_rnd_mask_all : ∃ t, step (loaded 0xC0FF) = .next t ∧ t.reg 0 = Config.freeByte 0 :=
  ⟨_, rfl, BitVec.and_allOnes⟩
/-- T101: upper bits cleared. -/
theorem test_ldI :
    ends (step ((loaded 0xAFFF).setI 0x1234)) (fun t => t.i == 0x0FFF) = true := by decide
/-- T105: no fault, no flag. -/
theorem test_addI_past_memory :
    ends (step ((withRegs (loaded 0xFF1E) [(0xF, 0x20)]).setI 0x0FF0))
      (fun t => t.i == 0x1010 && t.reg 0xF == 0x20) = true := by decide
/-- T104. -/
theorem test_addI_wraps :
    ends (step ((withRegs (loaded 0xF01E) [(0, 1)]).setI 0xFFFF)) (fun t => t.i == 0x0000) = true := by decide
/-- T107. -/
theorem test_ldF :
    ends (step (withRegs (loaded 0xF029) [(0, 0x0A)])) (fun t => t.i == 0x0032) = true := by decide
/-- T110. -/
theorem test_ldF_not_masked :
    ends (step (withRegs (loaded 0xF029) [(0, 0xFF)])) (fun t => t.i == 0x04FB) = true := by decide
/-- T114: the last three bytes of memory. -/
theorem test_ldB :
    ends (step ((withRegs (loaded 0xF033) [(0, 123)]).setI 0xFFD))
      (fun t => t.mem.read 0xFFD == 1 && t.mem.read 0xFFE == 2 && t.mem.read 0xFFF == 3 &&
        t.i == 0xFFD) = true := by decide
/-- T115. -/
theorem test_ldB_out : step ((withRegs (loaded 0xF033) [(0, 123)]).setI 0xFFE) =
    .next (((withRegs (loaded 0xF033) [(0, 123)]).setI 0xFFE).enterFault
      ⟨.outOfBounds, some 0x200, some 0xF033, .addr 0x1000⟩) := by exact rfl
/-- T117: one byte only. -/
theorem test_ldMemVx :
    ends (step ((withRegs (loaded 0xF055) [(0, 0xAB), (1, 0xCD)]).setI 0x300))
      (fun t => t.mem.read 0x300 == 0xAB && t.mem.read 0x301 == 0 && t.i == 0x300) = true := by decide
/-- T119. -/
theorem test_ldMemVx_out : step ((loaded 0xFF55).setI 0xFF1) =
    .next (((loaded 0xFF55).setI 0xFF1).enterFault
      ⟨.outOfBounds, some 0x200, some 0xFF55, .addr 0x1000⟩) := by exact rfl
/-- T121. -/
theorem test_ldVxMem :
    ends (step ((withRegs (loaded 0xF265) [(1, 9), (3, 7)]).setI 0x300 |>.storeBytes 0x300 [2, 0, 0, 5]))
      (fun t => t.reg 0 == 2 && t.reg 1 == 0 && t.reg 2 == 0 && t.reg 3 == 7) = true := by decide
/-- T122. -/
theorem test_ldVxMem_out : step ((loaded 0xF265).setI 0xFFE) =
    .next (((loaded 0xF265).setI 0xFFE).enterFault
      ⟨.outOfBounds, some 0x200, some 0xF265, .addr 0x1000⟩) := by exact rfl
/-- T159. -/
theorem test_skp_skips :
    ends (step (withKeys (withRegs (loaded 0xE19E) [(1, 7)]) [7])) (fun t => t.pc == 0x204) = true := by decide
/-- T163. -/
theorem test_skp_out : step (withRegs (loaded 0xE19E) [(1, 0x10)]) =
    .next ((withRegs (loaded 0xE19E) [(1, 0x10)]).enterFault
      ⟨.keyIndexOutOfRange, some 0x200, some 0xE19E, .value 0x10⟩) := by exact rfl
/-- T161. -/
theorem test_sknp_skips :
    ends (step (withRegs (loaded 0xE1A1) [(1, 7)])) (fun t => t.pc == 0x204) = true := by decide
/-- T164. -/
theorem test_sknp_out : step (withRegs (loaded 0xE1A1) [(1, 0xFF)]) =
    .next ((withRegs (loaded 0xE1A1) [(1, 0xFF)]).enterFault
      ⟨.keyIndexOutOfRange, some 0x200, some 0xE1A1, .value 0xFF⟩) := by exact rfl
/-- T154. -/
theorem test_ldVxDt :
    ends (step ((loaded 0xF307).setDt 0x3C)) (fun t => t.reg 3 == 0x3C && t.dt == 0x3C) = true := by decide
/-- T156. -/
theorem test_ldVxK_waits :
    ends (step (withRegs (loaded 0xF30A) [(3, 9)])) (fun t => t.pc == 0x200 && t.reg 3 == 9) = true := by decide
/-- T157. -/
theorem test_ldVxK_takes_lowest :
    ends (step (withKeys (loaded 0xF50A) [7, 3])) (fun t => t.reg 5 == 3 && t.pc == 0x202) = true := by decide
/-- T155. -/
theorem test_ldDtVx :
    ends (step ((loaded 0xF515).setDt 9)) (fun t => t.dt == 0) = true := by decide
/-- T153. -/
theorem test_ldStVx :
    ends (step (withRegs (loaded 0xF018) [(0, 2)])) (fun t => t.st == 2 && outToneGate t) = true := by decide

/-! ### Faults of the step itself, and the other transactions -/

/-- T1. -/
theorem test_illegal : step (loaded 0x5121) =
    .next ((loaded 0x5121).enterFault
      ⟨.illegalInstruction, some 0x200, some 0x5121, .none⟩) := by exact rfl
/-- T8. -/
theorem test_halt : step (loaded 0xFFFF) =
    .next ((loaded 0xFFFF).enterFault
      ⟨.halt, some 0x200, some 0xFFFF, .none⟩) := by exact rfl
/-- T9. -/
theorem test_no_sentinel : step { (loaded 0xFFFF) with params := ⟨false, .empty⟩ } =
    .next ({ (loaded 0xFFFF) with params := ⟨false, .empty⟩ }.enterFault
      ⟨.illegalInstruction, some 0x200, some 0xFFFF, .none⟩) := by exact rfl
/-- T12. -/
theorem test_fetch_out : step ((loaded 0x0000).setPc 0x1000) =
    .next (((loaded 0x0000).setPc 0x1000).enterFault
      ⟨.outOfBounds, some 0x1000, none, .addr 0x1000⟩) := by exact rfl
/-- T13. -/
theorem test_fetch_second_byte_out : step ((loaded 0x0000).setPc 0xFFF) =
    .next (((loaded 0x0000).setPc 0xFFF).enterFault
      ⟨.outOfBounds, some 0xFFF, none, .addr 0x1000⟩) := by exact rfl
/-- T11: the last word of memory is fetched, and PC goes past memory without a fault. -/
theorem test_last_word : ends (step ((State.reset.setPc 0xFFE).storeBytes 0xFFE [0x60, 0x01]))
    (fun t => t.reg 0 == 1 && t.pc == 0x1000) = true := by decide
/-- T14: an odd PC is fetched like any other. -/
theorem test_odd_pc : ends (step ((State.reset.setPc 0x201).storeBytes 0x201 [0x60, 0x07]))
    (fun t => t.reg 0 == 7 && t.pc == 0x203) = true := by decide
/-- T152, T150: timers count down and stop at 0. -/
theorem test_tick : ends (tick { State.reset with dt := 0xFF, st := 1 })
    (fun t => t.dt == 0xFE && t.st == 0 && !outToneGate t) = true ∧
    ends (tick State.reset) (fun t => t.dt == 0 && t.st == 0) = true := by decide
/-- T176. -/
theorem test_set_key : ends (setKey 4 true State.reset) (fun t => t.key 4 && !t.key 5) = true := by decide
/-- T173: the second image leaves what it does not cover. -/
theorem test_load_twice :
    ends (runAll [.load [0xAA, 0xBB, 0xCC, 0xDD], .load [0x11, 0x22]] State.reset)
      (fun t => t.mem.read 0x200 == 0x11 && t.mem.read 0x201 == 0x22 && t.mem.read 0x202 == 0xCC &&
        t.mem.read 0x203 == 0xDD && t.mem.read 0x204 == 0) = true := by decide
/-- T174, and a reset of a running core (70_reset_and_hazards.md R240). -/
theorem test_refusals :
    load [] { State.reset with started := true } = .refused .loadAfterStart ∧
    transact .reset State.reset = .refused .resetOfRunningCore := by exact ⟨rfl, rfl⟩
/-- T123, T90: the default font is at 0. -/
theorem test_font : State.reset.mem.read 0 = 0xF0 ∧ State.reset.mem.read 1 = 0x90 ∧
    State.reset.mem.read 0x4F = 0x80 ∧ State.reset.mem.read 0x50 = 0 := by decide
/-- A font that is not the default one is read back (00_scope.md R8). -/
theorem test_other_font :
    (State.resetWith (Vector.replicate 16 #v[1, 2, 3, 4, 5]) Config.zeroRegs Config.defaultParams).mem.read
      (5 * (1 : Fin 16).val + (2 : Fin 5).val) = 3 :=
  by rw [State.resetWith, Memory.read_ofFont]; decide
/-- 60_exceptions.md R210: codes and names. -/
theorem test_codes : FaultKind.illegalInstruction.code = 1 ∧ FaultKind.outOfBounds.code = 2 ∧
    FaultKind.stackOverflow.code = 3 ∧ FaultKind.stackUnderflow.code = 4 ∧
    FaultKind.keyIndexOutOfRange.code = 5 ∧ FaultKind.halt.code = 6 ∧ FaultKind.malformedImage.code = 7 ∧
    FaultKind.halt.name = "Halt" := by decide

/-! ### Witnesses: every obligation with a hypothesis, met by concrete states and operands -/

/-- ResetLeavesTheTabledValues: the boundaries of its two ranges. -/
theorem witness_reset_ranges : 0x4F < 0x50 ∧ 0x4F = 5 * (15 : Fin 16).val + (4 : Fin 5).val ∧ 0x50 ≤ 0x50 ∧
    0xFFF < 4096 := by decide
/-- ResetTakesEveryParameter: parameters that are not the defaults. -/
theorem witness_reset_parameters : ∃ s, s = State.resetWith (Vector.replicate 16 #v[1, 2, 3, 4, 5])
    { Config.zeroRegs with i := 0xFFFF } ⟨false, .fault⟩ ∧ s.i = 0xFFFF ∧ s ≠ State.reset :=
  ⟨_, rfl, rfl, fun h => absurd (congrArg State.i h) (by decide)⟩
/-- EncodeOfDecodeIsTheWord, and NoTwoRowsMatchOneWord: a word that decodes and the row it matches. -/
theorem witness_word_and_row : decodeWord 0x80B6 = .ok (.shr 0 0xB) ∧ ⟨"SHR", 0x8006, 0xF00F⟩ ∈ opcodeTable ∧
    (⟨"SHR", 0x8006, 0xF00F⟩ : OpcodeRow).covers 0x80B6 = true := by decide
/-- StepRunsTheDecodedInstruction, at the last PC that can fetch. -/
theorem witness_step_runs : ∃ s : State, s.fault = none ∧ s.pc.toNat + 1 < 4096 ∧ s.pc = 0xFFE ∧
    decodeWord (wordOfBytes (s.mem.read s.pc.toNat) (s.mem.read (s.pc.toNat + 1))) = .ok (.ldImm 0 1) :=
  ⟨(State.reset.setPc 0xFFE).withFetchWord 16 0x6001, by decide⟩
/-- FetchOutsideMemoryFaults: both clauses. -/
theorem witness_fetch_outside : (State.reset.setPc 0x1000).fault = none ∧
    4096 ≤ (State.reset.setPc 0x1000).pc.toNat ∧ 4096 ≤ (State.reset.setPc 0xFFFF).pc.toNat ∧
    (State.reset.setPc 0xFFF).fault = none ∧ (State.reset.setPc 0xFFF).pc.toNat = 4095 := by decide
/-- UndecodedWordFaults: the sentinel, and 0xFFFF without it, and another illegal word under it. -/
theorem witness_undecoded_sentinel : (loaded 0xFFFF).fault = none ∧ (loaded 0xFFFF).pc.toNat + 1 < 4096 ∧
    (0xFFFF : Word) = wordOfBytes ((loaded 0xFFFF).mem.read 0x200) ((loaded 0xFFFF).mem.read 0x201) ∧
    (loaded 0xFFFF).params.haltSentinel = true := by decide
theorem witness_undecoded_no_sentinel :
    let s := { loaded 0xFFFF with params := ⟨false, .empty⟩ }
    s.fault = none ∧ s.pc.toNat + 1 < 4096 ∧
    (0xFFFF : Word) = wordOfBytes (s.mem.read s.pc.toNat) (s.mem.read (s.pc.toNat + 1)) ∧
    decodeWord 0xFFFF = .error (.illegal 0xFFFF) ∧ s.params.haltSentinel = false := by decide
theorem witness_undecoded_other : (0x5121 : Word) = wordOfBytes ((loaded 0x5121).mem.read 0x200)
    ((loaded 0x5121).mem.read 0x201) ∧ decodeWord 0x5121 = .error (.illegal 0x5121) ∧ (0x5121 : Word) ≠ 0xFFFF := by
  decide
/-- HaltedCoreTakesNoTransaction. -/
theorem witness_halted : ∃ (s : State) (r : FaultRecord), s.fault = some r :=
  ⟨{ State.reset with fault := some ⟨.halt, some 0x200, some 0xFFFF, .none⟩ }, _, rfl⟩

/-- FaultsArePrecise and FaultsHaveTheTabledCauses, for each kind a step can raise. -/
theorem witness_fault_kinds :
    ends (step (loaded 0x5121)) (fun t => t.fault.map (·.kind) == some .illegalInstruction) = true ∧
    ends (step { loaded 0xD120 with params := ⟨true, .fault⟩ })
      (fun t => t.fault.map (·.kind) == some .illegalInstruction) = true ∧
    ends (step (State.reset.setPc 0xFFF)) (fun t => t.fault.map (·.kind) == some .outOfBounds) = true ∧
    ends (step ((loaded 0xF033).setI 0xFFE)) (fun t => t.fault.map (·.kind) == some .outOfBounds) = true ∧
    ends (step ((loaded 0xFF55).setI 0xFF1)) (fun t => t.fault.map (·.kind) == some .outOfBounds) = true ∧
    ends (step ((loaded 0xD01F).setI 0xFF2)) (fun t => t.fault.map (·.kind) == some .outOfBounds) = true ∧
    ends (step { loaded 0x2300 with sp := 16 }) (fun t => t.fault.map (·.kind) == some .stackOverflow) = true ∧
    ends (step (loaded 0x00EE)) (fun t => t.fault.map (·.kind) == some .stackUnderflow) = true ∧
    ends (step (withRegs (loaded 0xE19E) [(1, 0x10)]))
      (fun t => t.fault.map (·.kind) == some .keyIndexOutOfRange) = true ∧
    ends (step (loaded 0xFFFF)) (fun t => t.fault.map (·.kind) == some .halt) = true := by
  exact ⟨rfl, rfl, rfl, rfl, rfl, rfl, rfl, rfl, rfl, rfl⟩

theorem inv_of_no_fault {s : State} (hm : s.mem.wf) (hf : s.fault = none) : Inv s :=
  ⟨hm, fun r h => by rw [hf] at h; cases h⟩

/-- StepKeepsTheInvariant and EveryRunKeepsTheInvariant: a step that stores, then a tick and a key. -/
theorem witness_invariant : Inv ((loaded 0xF033).setI 0x300) ∧ ∃ t,
    runAll [.step, .tick, .setKey 3 true] ((loaded 0xF033).setI 0x300) = .next t ∧ t.key 3 = true :=
  ⟨inv_of_no_fault (by decide) rfl, _, rfl, by decide⟩
/-- StepKeepsPcFromWrapping: at the highest PC and the highest return address, and at the last PC that fetches. -/
theorem witness_pc_bounded :
    let s := { State.reset with pc := 0x10FE, sp := 1, stack := State.reset.stack.set 0 0x1000 }
    PcBounded s ∧ ∃ t, step s = .next t :=
  ⟨⟨by decide, by decide⟩, _, rfl⟩
theorem witness_pc_fetches :
    let s := (State.reset.setPc 0xFFE).withFetchWord 16 0x3000
    PcBounded s ∧ nextInstr s = some (.seImm 0 0) ∧ ∃ t, step s = .next t ∧ t.pc = 0x1002 :=
  ⟨⟨by decide, by decide⟩, rfl, _, rfl, by decide⟩
/-- CompletedStepStartsTheCore. -/
theorem witness_completed : ∃ t, step (loaded 0x6001) = .next t ∧ t.fault = none := ⟨_, rfl, rfl⟩
/-- OnlyClsAndDrwWriteTheFramebuffer. -/
theorem witness_cls_writes : ∃ t, step (withLit (loaded 0x00E0) [(0, 0)]) = .next t ∧
    t.fb.pixel 0 0 ≠ (withLit (loaded 0x00E0) [(0, 0)]).fb.pixel 0 0 := ⟨_, rfl, by decide⟩
theorem witness_drw_writes : ∃ t, step (loaded 0xD011) = .next t ∧
    t.fb.pixel 0 0 ≠ (loaded 0xD011).fb.pixel 0 0 := ⟨_, rfl, by decide⟩
/-- OnlyThreeInstructionsWriteI. -/
theorem witness_i_writes :
    (∃ t, step (loaded 0xA300) = .next t ∧ t.i ≠ (loaded 0xA300).i) ∧
    (∃ t, step (withRegs (loaded 0xF01E) [(0, 1)]) = .next t ∧ t.i ≠ (withRegs (loaded 0xF01E) [(0, 1)]).i) ∧
    ∃ t, step (withRegs (loaded 0xF029) [(0, 1)]) = .next t ∧ t.i ≠ (withRegs (loaded 0xF029) [(0, 1)]).i :=
  ⟨⟨_, rfl, by decide⟩, ⟨_, rfl, by decide⟩, ⟨_, rfl, by decide⟩⟩
/-- OnlyStoresWriteMemory, at the first and at the last byte of memory. -/
theorem witness_memory_writes :
    (∃ t, step (loaded 0xF033) = .next t ∧ t.mem.read 0 ≠ (loaded 0xF033).mem.read 0) ∧
    ∃ t, step ((withRegs (loaded 0xFF55) [(0xF, 1)]).setI 0xFF0) = .next t ∧
      t.mem.read 0xFFF ≠ ((withRegs (loaded 0xFF55) [(0xF, 1)]).setI 0xFF0).mem.read 0xFFF :=
  ⟨⟨_, rfl, by decide⟩, ⟨_, rfl, by decide⟩⟩
/-- OnlyCallAndRetTouchTheStack. -/
theorem witness_stack_writes :
    (∃ t, step (loaded 0x2300) = .next t ∧ t.sp ≠ (loaded 0x2300).sp) ∧
    ∃ t, step { loaded 0x00EE with sp := 16 } = .next t ∧ t.sp ≠ 16 :=
  ⟨⟨_, rfl, by decide⟩, ⟨_, rfl, by decide⟩⟩
/-- OnlyTimerLoadsWriteTimersAndNoneKeys. -/
theorem witness_timer_writes :
    (∃ t, step (withRegs (loaded 0xF515) [(5, 1)]) = .next t ∧ t.dt ≠ (withRegs (loaded 0xF515) [(5, 1)]).dt) ∧
    ∃ t, step (withRegs (loaded 0xF518) [(5, 1)]) = .next t ∧ t.st ≠ (withRegs (loaded 0xF518) [(5, 1)]).st :=
  ⟨⟨_, rfl, by decide⟩, ⟨_, rfl, by decide⟩⟩
/-- OnlyFlagInstructionsWriteVfUnnamed: by a flag, by a draw, and by naming it. -/
theorem witness_vf_writes :
    (∃ t, step (loaded 0x8015) = .next t ∧ t.reg vF ≠ (loaded 0x8015).reg vF) ∧
    (∃ t, step (withLit (loaded 0xD011) [(0, 0)]) = .next t ∧ t.reg vF ≠ (withLit (loaded 0xD011) [(0, 0)]).reg vF) ∧
    ∃ t, step (loaded 0xFF65) = .next t ∧ t.reg vF ≠ (loaded 0xFF65).reg vF :=
  ⟨⟨_, rfl, by decide⟩, ⟨_, rfl, by decide⟩, ⟨_, rfl, by decide⟩⟩
/-- UnusedStackEntriesAreNeverObserved: the entry at SP differs, and a CALL overwrites it; and the same when halted. -/
theorem witness_unused_stack :
    let s := { loaded 0x2300 with sp := 15 }
    let s' := { s with stack := s.stack.set 15 0xABC }
    SameButUnusedStack s s' ∧ s.stack ≠ s'.stack ∧ ∃ t, step s = .next t :=
  ⟨⟨rfl, by decide⟩, by decide, _, rfl⟩
theorem witness_unused_stack_halted :
    let s := { State.reset with fault := some ⟨.halt, some 0x200, some 0xFFFF, .none⟩ }
    let s' := { s with stack := s.stack.set 0 0xABC }
    SameButUnusedStack s s' ∧ ∃ r, step s = .fault r :=
  ⟨⟨rfl, by decide⟩, _, rfl⟩

/-- AddSetsCarryLast, SubSetsNoBorrowLast, SubnSetsNoBorrowLast, ShrShiftsVxInPlace, ShlShiftsVxInPlace: x = 0xF and
x other than 0xF. -/
theorem witness_flag_destinations : (0xE : Reg) ≠ vF ∧ (0xF : Reg) = vF := by decide
/-- RetPopsOrUnderflows, CallPushesOrOverflows: each end of SP. -/
theorem witness_stack_ends :
    ({ State.reset with sp := 1 } : State).sp.val = (0 : Fin 16).val + 1 ∧
    ({ State.reset with sp := 16 } : State).sp.val = (15 : Fin 16).val + 1 ∧ State.reset.sp = 0 ∧
    State.reset.sp.val = (0 : Fin 16).val ∧ ({ State.reset with sp := 15 } : State).sp.val = (15 : Fin 16).val ∧
    ({ State.reset with sp := 16 } : State).sp = 16 := by decide
/-- ImmediateSkips, RegisterSkips: both ways. -/
theorem witness_skips : State.reset.reg 0 = 0 ∧ State.reset.reg 0 ≠ 1 ∧ State.reset.reg 0 = State.reset.reg 1 ∧
    (withRegs State.reset [(1, 7)]).reg 0 ≠ (withRegs State.reset [(1, 7)]).reg 1 := by decide
theorem witness_two_reg_words : (0x5121 : Word).toNat / 4096 = 5 ∧ (0x5121 : Word).toNat % 16 ≠ 0 ∧
    (0x9ABF : Word).toNat / 4096 = 9 ∧ (0x9ABF : Word).toNat % 16 ≠ 0 := by decide
/-- RetComesBackAfterTheCall, at the last entry of the stack; the subroutine changed a register. -/
theorem witness_ret_after_call :
    let s := { State.reset with sp := 15 }
    s.sp.val < 16 ∧ ∃ t, ∃ u : State, exec (.call 0x300) s = .next t ∧ u.stack = t.stack ∧ u.sp = t.sp ∧
      u.reg 0 ≠ t.reg 0 :=
  ⟨by decide, _, withRegs ((State.reset.setPc 0x300).setStack (State.reset.stack.set 15 0x202) 16) [(0, 1)], rfl,
    by decide, by decide, by decide⟩
/-- DrwXorsTheSprite: no rows; 15 rows up to the last byte of memory; a hit; no hit. -/
theorem witness_drw_ranges : State.reset.params.drawZeroRows = .empty ∧ ((0 : Fin 16) = 0) ∧
    (State.reset.setI 0xFF1).i.toNat + (15 : Fin 16).val = 4096 ∧ (15 : Fin 16) ≠ 0 := by decide
theorem witness_drw_hit :
    let s := withLit State.reset [(3, 0)]
    s.i.toNat + (1 : Fin 16).val ≤ 4096 ∧ s.fb.pixel 3 0 = true ∧
    spriteCovers s.mem s.i.toNat 1 (s.reg 0).toNat (s.reg 0).toNat 3 0 = true := by decide
theorem witness_drw_no_hit : ∀ px py, px < 64 → py < 32 → State.reset.fb.pixel px py = true →
    spriteCovers State.reset.mem State.reset.i.toNat 1 (State.reset.reg 0).toNat (State.reset.reg 0).toNat px py
      = false :=
  fun px py _ _ h => absurd (h.symm.trans (Framebuffer.pixel_blank px py)) (by decide)
/-- DrwFaults: both clauses. -/
theorem witness_drw_faults : ((0 : Fin 16) = 0 ∧
      ({ State.reset with params := ⟨true, .fault⟩ } : State).params.drawZeroRows = .fault) ∧
    ((15 : Fin 16) ≠ 0 ∧ 4096 < (State.reset.setI 0xFF2).i.toNat + (15 : Fin 16).val) := by decide
/-- DrawingTwiceRestoresTheFramebuffer, and SecondDrawSetsVfForAnySetBit (which fails in other states). -/
theorem witness_draw_twice : (0 : Reg) ≠ vF ∧ (1 : Reg) ≠ vF ∧ State.reset.i.toNat + (5 : Fin 16).val ≤ 4096 ∧
    ((5 : Fin 16) = 0 → State.reset.params.drawZeroRows = .empty) ∧
    ∃ t u, exec (.drw 0 1 5) State.reset = .next t ∧ exec (.drw 0 1 5) t = .next u :=
  ⟨by decide, by decide, by decide, by decide, _, _, rfl, rfl⟩
/-- LdBStoresTheDigits, LdMemStoresTheRegisters, LdVxMemLoadsTheRegisters: at the last address that exists, and at the
first that does not. -/
theorem witness_memory_ends : memAtI (State.reset.setI 0xFFD) 2 < 4096 ∧ 4096 ≤ memAtI (State.reset.setI 0xFFE) 2 ∧
    memAtI (State.reset.setI 0xFF0) (15 : Reg).val < 4096 ∧ 4096 ≤ memAtI (State.reset.setI 0xFF1) (15 : Reg).val ∧
    memAtI (State.reset.setI 0xFFF) (0 : Reg).val < 4096 ∧ 4096 ≤ memAtI (State.reset.setI 0x1000) (0 : Reg).val := by
  decide
/-- LoadAfterStoreRestoresTheRegisters: all 16 registers at the end of memory; between, a register changed. -/
theorem witness_load_after_store :
    let s := withRegs (State.reset.setI 0xFF0) [(0xF, 9)]
    memAtI s (15 : Reg).val < 4096 ∧ ∃ t, ∃ u : State, exec (.ldMemVx 0xF) s = .next t ∧ u.mem = t.mem ∧ u.i = t.i ∧
      u.reg 0xF ≠ s.reg 0xF :=
  ⟨by decide, _, withRegs ((withRegs (State.reset.setI 0xFF0) [(0xF, 9)]).storeBytes 0xFF0
    (List.replicate 15 0 ++ [9])) [(0xF, 0)], rfl, by decide, by decide, by decide⟩
/-- StoreReachesTheNextFetch: as in program P8 of 95_test_vectors.md. -/
theorem witness_store_reaches_fetch :
    let s := (State.reset.setI 0x208).setPc 0x206
    (1 : Reg).val = (0 : Reg).val + 1 ∧ (1 : Reg) ≤ 1 ∧ memAtI s (1 : Reg).val < 4096 ∧
    ∃ t, exec (.ldMemVx 1) s = .next t ∧ t.pc.toNat = memAtI s (0 : Reg).val :=
  ⟨by decide, by decide, by decide, _, rfl, by decide⟩
/-- KeySkips: the last key, pressed and released; the first index that is none. -/
theorem witness_keys : (withRegs State.reset [(1, 15)]).reg 1 = 15 ∧
    (withKeys (withRegs State.reset [(1, 15)]) [15]).key 15 = true ∧ State.reset.key 15 = false ∧
    15 < ((withRegs State.reset [(1, 16)]).reg 1).toNat := by decide
/-- KeyWaitTakesTheLowestKeyOrRepeats: the last key, the lowest of two, and none. -/
theorem witness_key_wait :
    ((withKeys State.reset [15]).key 15 = true ∧ ∀ j : Key, j < 15 → (withKeys State.reset [15]).key j = false) ∧
    ((withKeys State.reset [3, 7]).key 3 = true ∧ ∀ j : Key, j < 3 → (withKeys State.reset [3, 7]).key j = false) ∧
    ∀ k : Key, State.reset.key k = false := by decide
/-- TickCountsBothTimersDown, SetKeyWritesOneKey, LoadCopiesTheImageOrRejectsIt: a core that is not halted, before and
after its first step; the largest image that fits and the smallest that does not. -/
theorem witness_host : State.reset.fault = none ∧ State.reset.started = false ∧
    (List.replicate 3584 (0 : Byte)).length ≤ 3584 ∧ 3584 < (List.replicate 3585 (0 : Byte)).length ∧
    ({ State.reset with started := true } : State).fault = none :=
  ⟨rfl, rfl, (List.length_replicate ..).le, (List.length_replicate ..).ge, rfl⟩
/-- ParkedAndWaitingCoresStay: a jump to itself, and a key-wait with no key. -/
theorem witness_parked : Parked (loaded 0x1200) := ⟨rfl, 0x200, rfl, by decide⟩
theorem witness_waiting : Waiting (loaded 0xF30A) := ⟨rfl, ⟨3, rfl⟩, by decide⟩

end Sys2Proof.Tests
end

section
/-! PROOFS. The rows of the opcode table exclude each other (30_encoding.md R79). -/

namespace Sys2Proof

/-- The two rows ask for different values in some bit that both fix. -/
def OpcodeRow.Clashes (r r' : OpcodeRow) : Prop := r.pattern &&& r'.mask ≠ r'.pattern &&& r.mask
deriving Decidable

theorem OpcodeRow.covers_eq_true {r : OpcodeRow} {w : Word} : r.covers w = true ↔ w &&& r.mask = r.pattern := by
  simp only [OpcodeRow.covers, beq_iff_eq]

theorem OpcodeRow.symm_clashes : Std.Symm OpcodeRow.Clashes := ⟨fun _ _ h => Ne.symm h⟩

/-- A word of both rows shows, under both masks, the pattern of each: w &&& r.mask &&& r'.mask. -/
theorem OpcodeRow.not_clashes_of_covers {r r' : OpcodeRow} {w : Word} (h : r.covers w = true)
    (h' : r'.covers w = true) : ¬ r.Clashes r' := by
  rw [covers_eq_true] at h h'
  have hpat : r.pattern &&& r'.mask = r'.pattern &&& r.mask := by
    rw [← h, ← h', BitVec.and_assoc, BitVec.and_assoc, BitVec.and_comm r.mask]
  exact fun hclash => hclash hpat

theorem opcodeTable_pairwise_clashes : opcodeTable.Pairwise OpcodeRow.Clashes := by decide

theorem opcodeTable_not_covers_allOnes : ∀ r ∈ opcodeTable, r.covers 0xFFFF = false := by decide

/-- Settles O8: distinct rows clash in a bit that both fix, so no word has both patterns. -/
theorem noTwoRowsMatchOneWord : Obligations.NoTwoRowsMatchOneWord := by
  refine ⟨fun r hr r' hr' w hw hw' => ?_, opcodeTable_not_covers_allOnes⟩
  by_contra hne
  have := OpcodeRow.symm_clashes
  have hclash : r.Clashes r' := opcodeTable_pairwise_clashes.forall hr hr' hne
  exact OpcodeRow.not_clashes_of_covers hw hw' hclash

end Sys2Proof
end

section
/-! PROOFS. The frame of each state operation, of every instruction and of a step: which parts of the state it may
change (`KeepsAllBut`, Sys2Proof/Safety.lean). -/

namespace Sys2Proof

/-- The parts an instruction may write when it raises nothing, PC and `started` aside. -/
def Instr.writes : Instr → List Machine.Part
  | .cls => [.display]
  | .drw _ _ _ => [.display, .regs]
  | .ret | .call _ => [.stack]
  | .jp _ | .jpV0 _ | .seImm _ _ | .sneImm _ _ | .seReg _ _ | .sneReg _ _ | .skp _ | .sknp _ => []
  | .ldImm _ _ | .addImm _ _ | .ldReg _ _ | .or _ _ | .and _ _ | .xor _ _ | .addReg _ _ | .sub _ _ | .shr _ _
  | .subn _ _ | .shl _ _ | .ldVxDt _ | .ldVxK _ | .ldVxMem _ => [.regs]
  | .rnd _ _ => [.regs, .draws]
  | .ldI _ | .addI _ | .ldF _ => [.index]
  | .ldDtVx _ => [.delayTimer]
  | .ldStVx _ => [.soundTimer]
  | .ldB _ | .ldMemVx _ => [.memory]

end Sys2Proof

namespace Sys2Proof.Machine

theorem Unchanged.refl (p : Part) (s : State) : Unchanged p s s := by
  cases p <;> simp [Unchanged]

theorem Unchanged.iff_of_unchanged {p : Part} {s t u : State} (h : Unchanged p t u) :
    Unchanged p s u ↔ Unchanged p s t := by
  cases p <;> simp_all [Unchanged]

@[simp] theorem KeepsAllBut.refl (ps : List Part) (s : State) : KeepsAllBut ps s s := fun p _ => Unchanged.refl p s

/-- An operation that leaves every part outside ps alone does not matter to a frame that excepts ps. -/
theorem keepsAllBut_iff_of_keeps {ps : List Part} {s t u : State} (h : KeepsAllBut ps t u) :
    KeepsAllBut ps s u ↔ KeepsAllBut ps s t :=
  forall₂_congr fun p hp => Unchanged.iff_of_unchanged (h p hp)

/-! ### One frame rule per state operation -/

section OperationFrames

variable {ps : List Part} {s t : State}

@[simp] theorem keepsAllBut_advance : KeepsAllBut ps s t.advance ↔ KeepsAllBut ps s t :=
  keepsAllBut_iff_of_keeps fun p _ => by cases p <;> simp [Unchanged]

@[simp] theorem keepsAllBut_setPc {a : Word} : KeepsAllBut ps s (t.setPc a) ↔ KeepsAllBut ps s t :=
  keepsAllBut_iff_of_keeps fun p _ => by cases p <;> simp [Unchanged]

@[simp] theorem keepsAllBut_setReg (h : .regs ∈ ps) {x : Reg} {b : Byte} :
    KeepsAllBut ps s (t.setReg x b) ↔ KeepsAllBut ps s t :=
  keepsAllBut_iff_of_keeps fun p hp => by cases p <;> simp_all [Unchanged]

@[simp] theorem keepsAllBut_loadRegs (h : .regs ∈ ps) {x : Reg} :
    KeepsAllBut ps s (t.loadRegs x) ↔ KeepsAllBut ps s t :=
  keepsAllBut_iff_of_keeps fun p hp => by cases p <;> simp_all [Unchanged]

@[simp] theorem keepsAllBut_setI (h : .index ∈ ps) {a : Word} :
    KeepsAllBut ps s (t.setI a) ↔ KeepsAllBut ps s t :=
  keepsAllBut_iff_of_keeps fun p hp => by cases p <;> simp_all [Unchanged]

@[simp] theorem keepsAllBut_setDt (h : .delayTimer ∈ ps) {b : Byte} :
    KeepsAllBut ps s (t.setDt b) ↔ KeepsAllBut ps s t :=
  keepsAllBut_iff_of_keeps fun p hp => by cases p <;> simp_all [Unchanged]

@[simp] theorem keepsAllBut_setSt (h : .soundTimer ∈ ps) {b : Byte} :
    KeepsAllBut ps s (t.setSt b) ↔ KeepsAllBut ps s t :=
  keepsAllBut_iff_of_keeps fun p hp => by cases p <;> simp_all [Unchanged]

@[simp] theorem keepsAllBut_setFb (h : .display ∈ ps) {f : Framebuffer} :
    KeepsAllBut ps s (t.setFb f) ↔ KeepsAllBut ps s t :=
  keepsAllBut_iff_of_keeps fun p hp => by cases p <;> simp_all [Unchanged]

@[simp] theorem keepsAllBut_storeBytes (h : .memory ∈ ps) {a : Nat} {bs : List Byte} :
    KeepsAllBut ps s (t.storeBytes a bs) ↔ KeepsAllBut ps s t :=
  keepsAllBut_iff_of_keeps fun p hp => by cases p <;> simp_all [Unchanged]

@[simp] theorem keepsAllBut_setStack (h : .stack ∈ ps) {e : Vector Word 16} {n : Fin 17} :
    KeepsAllBut ps s (t.setStack e n) ↔ KeepsAllBut ps s t :=
  keepsAllBut_iff_of_keeps fun p hp => by cases p <;> simp_all [Unchanged]

@[simp] theorem keepsAllBut_draw (h : .draws ∈ ps) : KeepsAllBut ps s t.draw.2 ↔ KeepsAllBut ps s t :=
  keepsAllBut_iff_of_keeps fun p hp => by cases p <;> simp_all [Unchanged]

@[simp] theorem keepsAllBut_enterFault (h : .fault ∈ ps) {r : FaultRecord} :
    KeepsAllBut ps s (t.enterFault r) ↔ KeepsAllBut ps s t :=
  keepsAllBut_iff_of_keeps fun p hp => by cases p <;> simp_all [Unchanged]

end OperationFrames

/-! ### The frame of every instruction -/

/-- Whatever state the result goes on with, every part but those listed is as in s. -/
def ResultKeepsAllBut (ps : List Part) (s : State) (r : StepResult) : Prop := ∀ t, r = .next t → KeepsAllBut ps s t

@[simp] theorem resultKeepsAllBut_next {ps : List Part} {s t : State} :
    ResultKeepsAllBut ps s (.next t) ↔ KeepsAllBut ps s t := by
  simp [ResultKeepsAllBut]

@[simp] theorem resultKeepsAllBut_faultAt {ps : List Part} {s : State} {i : Instr} {kind : FaultKind}
    {info : FaultInfo} (h : .fault ∈ ps) : ResultKeepsAllBut ps s (faultAt i s kind info) := by
  simp [faultAt_eq, h]

/-- The split that matters is the one each meaning makes: a fault changes the fault field alone, and what runs is a
chain of operations whose frame rules stand above. -/
theorem exec_resultKeepsAllBut (i : Instr) (s : State) : ResultKeepsAllBut (.fault :: i.writes) s (exec i s) := by
  cases i
  case ret =>
    simp only [exec, execRet]
    split
    · simp
    · next hpop =>
      obtain ⟨_, _, rfl⟩ := State.pop_eq_some hpop
      simp [Instr.writes]
  case call addr =>
    simp only [exec, execCall]
    split
    · simp
    · next hpush =>
      obtain ⟨_, rfl⟩ := State.push_eq_some hpush
      simp [Instr.writes]
  case drw x y n =>
    simp only [exec, execDrw]
    split
    · simp
    · split <;> simp [Instr.writes]
  case ldB | ldMemVx | ldVxMem => simp only [exec, execLdB, execLdMemVx, execLdVxMem]; split <;> simp [Instr.writes]
  case skp | sknp => simp only [exec, execSkp, execSknp]; split <;> simp [Instr.writes, State.skipIf_eq]
  case ldVxK => simp only [exec, execLdVxK]; split <;> simp [Instr.writes]
  all_goals
    simp [exec, Instr.writes, execCls, execJp, execJpV0, execSeImm, execSneImm, execSeReg, execSneReg, execLdImm,
      execAddImm, execLdReg, execOr, execAnd, execXor, execAddReg, execSub, execShr, execSubn, execShl, execRnd,
      execLdI, execAddI, execLdF, execLdVxDt, execLdDtVx, execLdStVx, State.skipIf_eq, State.writeWithFlag]

/-- An instruction changes no part but those it writes, and the fault field if it raises a fault. -/
theorem exec_keepsAllBut {i : Instr} {s t : State} (h : exec i s = .next t) :
    KeepsAllBut (.fault :: i.writes) s t :=
  exec_resultKeepsAllBut i s t h

/-- A part that a step changed, the fault field aside, is one that the instruction it ran writes. -/
theorem mem_writes_of_step {s t : State} {p : Part} (h : step s = .next t) (hp : p ≠ .fault)
    (hc : ¬ Unchanged p s t) : ∃ i, nextInstr s = some i ∧ p ∈ i.writes := by
  have hfault (r : FaultRecord) : Unchanged p s (s.enterFault r) := by
    have hframe : KeepsAllBut [.fault] s (s.enterFault r) := by simp
    exact hframe p (by simpa using hp)
  obtain ⟨-, ⟨-, rfl⟩ | ⟨-, -, rfl⟩ | ⟨_, -, -, rfl⟩ | ⟨-, i, hi, hexec⟩⟩ := step_inversion h
  · exact absurd (hfault _) hc
  · exact absurd (hfault _) hc
  · exact absurd (hfault _) hc
  · refine ⟨i, hi, ?_⟩
    by_contra hw
    exact hc (exec_keepsAllBut hexec p (by simp [hp, hw]))

theorem display_mem_writes {i : Instr} : .display ∈ i.writes ↔ i = .cls ∨ ∃ x y n, i = .drw x y n := by
  cases i <;> simp [Instr.writes]

/-- Settles O20: the instruction of a step that changes the framebuffer writes the display, and only CLS and DRW do. -/
theorem onlyClsAndDrwWriteTheFramebuffer : Obligations.OnlyClsAndDrwWriteTheFramebuffer := by
  intro s t h hfb
  obtain ⟨i, hi, hw⟩ := mem_writes_of_step (p := .display) h (by decide) hfb
  simpa [hi] using display_mem_writes.1 hw

end Sys2Proof.Machine
end

section
/-! PROOFS. CLS and DRW (40_display.md). -/

namespace Sys2Proof.Machine

/-! ### CLS -/

/-- Settles O42: the new framebuffer is the blank one, and clearing writes the display alone. -/
theorem clsUnlightsEveryPixel : Obligations.ClsUnlightsEveryPixel := by
  refine ⟨by decide, fun s => ⟨s.advance.setFb Framebuffer.blank, rfl, fun x y => ?_, ?_, rfl, rfl⟩⟩
  · exact Framebuffer.pixel_blank x y
  · simp

/-! ### DRW -/

@[simp] theorem flagByte_eq_one {c : Bool} : flagByte c = 1 ↔ c = true := by cases c <;> decide

section Drw

variable {x y : Reg} {n : Fin 16} {s : State}

/-- Whether the sprite that DRW draws in s covers the pixel at column px, row py of the screen. -/
abbrev drwCovers (x y : Reg) (n : Fin 16) (s : State) (px py : Nat) : Bool :=
  spriteCovers s.mem s.i.toNat n.val (s.reg x).toNat (s.reg y).toNat px py

/-- The framebuffer DRW leaves, and whether it hit a lit pixel. -/
def drwBlit (x y : Reg) (n : Fin 16) (s : State) : Framebuffer × Bool :=
  blit s.mem s.i.toNat n.val (s.reg x).toNat (s.reg y).toNat s.fb

/-- The state after a DRW that raises nothing. -/
def State.afterDrw (x y : Reg) (n : Fin 16) (s : State) : State :=
  (s.advance.setFb (drwBlit x y n s).1).setReg vF (flagByte (drwBlit x y n s).2)

/-- DRW raises nothing where height 0 is empty (40_display.md R104) and every row is in memory. -/
theorem exec_drw (hempty : n = 0 → s.params.drawZeroRows = .empty) (hrows : n = 0 ∨ s.i.toNat + n.val ≤ 4096) :
    exec (.drw x y n) s = .next (s.afterDrw x y n) := by
  have hzero : ¬ (n = 0 ∧ s.params.drawZeroRows = .fault) := fun ⟨h0, hf⟩ => by simp [hempty h0] at hf
  have hbounds : firstOutOfBounds (memAtI s 0) n.val = none :=
    firstOutOfBounds_eq_none.2 (hrows.imp_left (congrArg Fin.val))
  simp only [exec, execDrw, hzero, if_false, hbounds]
  rfl

@[simp] theorem State.afterDrw_mem : (s.afterDrw x y n).mem = s.mem := rfl
@[simp] theorem State.afterDrw_i : (s.afterDrw x y n).i = s.i := rfl

/-- Every pixel is XORed with the sprite (40_display.md R102). -/
theorem pixel_afterDrw (px py : Nat) :
    (s.afterDrw x y n).fb.pixel px py = (s.fb.pixel px py ^^ drwCovers x y n s px py) :=
  blit_pixel _ _ _ _ _ _ (by omega) px py

theorem vF_afterDrw : (s.afterDrw x y n).reg vF = flagByte (drwBlit x y n s).2 := by
  simp [State.afterDrw]

/-- The collision flag tells whether the sprite covers a lit pixel of the screen. -/
theorem vF_afterDrw_eq_one :
    (s.afterDrw x y n).reg vF = 1 ↔
      ∃ px py, px < 64 ∧ py < 32 ∧ s.fb.pixel px py = true ∧ drwCovers x y n s px py = true := by
  rw [vF_afterDrw, flagByte_eq_one, drwBlit, blit_hit _ _ _ _ _ _ (by omega)]
  constructor
  · rintro ⟨px, hpx, py, hpy, hcov, hlit⟩
    exact ⟨px, py, hpx, hpy, hlit, hcov⟩
  · rintro ⟨px, py, hpx, hpy, hlit, hcov⟩
    exact ⟨px, hpx, py, hpy, hcov, hlit⟩

theorem vF_afterDrw_zero_or_one : (s.afterDrw x y n).reg vF = 0 ∨ (s.afterDrw x y n).reg vF = 1 := by
  rw [vF_afterDrw]
  cases (drwBlit x y n s).2 <;> simp

theorem reg_afterDrw {r : Reg} (h : r ≠ vF) : (s.afterDrw x y n).reg r = s.reg r := by
  simp [State.afterDrw, h]

theorem keepsAllBut_afterDrw : KeepsAllBut [.display, .regs] s (s.afterDrw x y n) := by
  simp [State.afterDrw]

/-- A DRW whose origin is not in VF leaves the sprite and its place as they are. -/
theorem drwCovers_afterDrw (hx : x ≠ vF) (hy : y ≠ vF) :
    drwCovers x y n (s.afterDrw x y n) = drwCovers x y n s := by
  funext px py
  simp only [drwCovers, reg_afterDrw hx, reg_afterDrw hy, State.afterDrw_mem, State.afterDrw_i]

end Drw

/-- Settles O43: DRW raises nothing under these hypotheses, and its blit XORs the sprite and reports the hit. -/
theorem drwXorsTheSprite : Obligations.DrwXorsTheSprite := by
  intro x y n s hempty hrows
  refine ⟨s.afterDrw x y n, exec_drw hempty hrows, fun px py _ _ => pixel_afterDrw px py, vF_afterDrw_eq_one.2,
    fun hmiss => ?_, fun r hr => reg_afterDrw (by simpa using hr), keepsAllBut_afterDrw, rfl, rfl⟩
  refine vF_afterDrw_zero_or_one.resolve_right fun hone => ?_
  obtain ⟨px, py, hpx, hpy, hlit, hcov⟩ := vF_afterDrw_eq_one.1 hone
  simp [hmiss px py hpx hpy hlit] at hcov

/-- Settles O45: the two draws XOR the same sprite, and a pixel it covers is lit after the first exactly when it was
unlit before. -/
theorem drawingTwiceRestoresTheFramebuffer : Obligations.DrawingTwiceRestoresTheFramebuffer := by
  intro x y n s t hx hy hrows hempty hst
  obtain rfl : s.afterDrw x y n = t := by simpa [exec_drw hempty (.inr hrows)] using hst
  have hsame := drwCovers_afterDrw (n := n) (s := s) hx hy
  refine ⟨(s.afterDrw x y n).afterDrw x y n, exec_drw hempty (.inr hrows),
    Framebuffer.ext_of_pixel fun px py _ _ => ?_, vF_afterDrw_zero_or_one, ?_⟩
  · rw [pixel_afterDrw, pixel_afterDrw, hsame, Bool.xor_assoc, Bool.xor_self, Bool.xor_false]
  · rw [vF_afterDrw_eq_one, hsame]
    refine exists₂_congr fun px py => and_congr_right fun _ => and_congr_right fun _ => and_congr_left fun hcov => ?_
    rw [pixel_afterDrw, hcov, Bool.xor_true, Bool.not_eq_true']

/-- Settles O44: the check of height 0 comes first, then the bounds check, which answers the lowest address outside. -/
theorem drwFaults : Obligations.DrwFaults := by
  refine fun x y n s => ⟨?_, fun h0 hfault => ?_, fun hn hrows => ?_⟩
  · simp only [encode, toNat_encodeXY, BitVec.toNat_ofFin, BitVec.reduceToNat]
    omega
  · simp only [exec, execDrw, h0, hfault, and_self, if_true, faultAt_eq]
    rfl
  · have hbounds : firstOutOfBounds (memAtI s 0) n.val = some (max s.i.toNat 4096) :=
      firstOutOfBounds_eq_some.2 ⟨Nat.pos_of_ne_zero fun h => hn (Fin.ext h), hrows, rfl⟩
    simp only [exec, execDrw, hn, false_and, if_false, hbounds, faultAt_eq]
    rfl

/-- The core after reset, where I is 0 and so names the font byte 0xF0, with the four pixels lit that this byte covers
when it is drawn in the corner. -/
def cornerLit : State :=
  State.reset.setFb (Framebuffer.blank.toggle 0 0 |>.toggle 1 0 |>.toggle 2 0 |>.toggle 3 0)

/-- Refutes O46: the byte 0xF0 drawn over its own four lit pixels unlights them, so that the second draw hits none and
leaves VF at 0 (log entry 14). -/
theorem not_secondDrawSetsVfForAnySetBit : ¬ Obligations.SecondDrawSetsVfForAnySetBit := by
  intro h
  have hvf := (h 0 0 1 cornerLit _ _ (by decide) (by decide) (by decide) (by decide) rfl rfl).2
    ⟨0, by decide, by decide⟩
  exact absurd hvf (by decide)

end Sys2Proof.Machine
end

section
/-! PROOFS. The control-flow family (41_control_flow.md), and the bound on PC that keeps it from wrapping
(10_state.md R26). -/

namespace Sys2Proof.Machine

/-! ### Jumps -/

/-- Settles O38: both jumps only move PC, and neither target leaves 16 bits. -/
theorem jumpsSetPc : Obligations.JumpsSetPc := by
  refine fun addr s =>
    ⟨⟨?_, s.advance.setPc (addrOperand addr), rfl, toNat_addrOperand addr, rfl, by simp⟩,
      ?_, s.advance.setPc (offsetTarget addr s), rfl, toNat_offsetTarget addr s, rfl, by simp⟩
  all_goals simp only [encode, toNat_encodeAddr, BitVec.reduceToNat, Nat.reduceMul]

/-! ### Skips -/

@[simp] theorem keepsAllBut_skipIf {ps : List Part} {s t : State} {c : Bool} :
    KeepsAllBut ps s (t.skipIf c) ↔ KeepsAllBut ps s t := by
  rw [State.skipIf_eq, keepsAllBut_setPc]

theorem pc_skipIf_advance (s : State) (c : Bool) :
    (s.advance.skipIf c).pc = if c then s.pc + 4 else s.pc + 2 := by
  rw [State.skipIf_eq, State.setPc_pc, State.advance_pc, BitVec.add_assoc]
  rfl

/-- What every skip does with its condition c (41_control_flow.md R120): it changes no part of the state, and goes on
one word further when c holds. -/
theorem skipIf_advance_spec (s : State) (c : Bool) :
    KeepsAllBut [] s (s.advance.skipIf c) ∧
      (c = true → ContinuesAt (s.pc + 4) (s.advance.skipIf c)) ∧
      (c = false → ContinuesAt (s.pc + 2) (s.advance.skipIf c)) := by
  have hstarted : (s.advance.skipIf c).started = true := by simp [State.skipIf_eq]
  refine ⟨by simp, fun hc => ⟨?_, hstarted⟩, fun hc => ⟨?_, hstarted⟩⟩
  · rw [pc_skipIf_advance, if_pos hc]
  · rw [pc_skipIf_advance, if_neg (by simp [hc])]

/-- Settles O39: each is a skip on whether Vx is kk. -/
theorem immediateSkips : Obligations.ImmediateSkips := by
  refine fun x kk s => ⟨⟨?_, _, rfl, by simpa using skipIf_advance_spec s (s.reg x == kk)⟩,
    ?_, _, rfl, by simpa using skipIf_advance_spec s (s.reg x != kk)⟩
  all_goals
    simp only [encode, toNat_encodeXKk, BitVec.reduceToNat]
    omega

/-- In groups 5 and 9 a last nibble other than 0 is no sub-operation (41_control_flow.md R126, R127). -/
theorem decodeWord_registerSkip_illegal {w : Word} (hgroup : w.toNat / 4096 = 5 ∨ w.toNat / 4096 = 9)
    (hlast : w.toNat % 16 ≠ 0) : decodeWord w = .error (.illegal w) := by
  rcases hgroup with h | h <;> simp [decodeWord, decodeTwoReg, toNat_nib1, toNat_nib4, h, hlast]

/-- Settles O40: each is a skip on whether Vx is Vy. -/
theorem registerSkips : Obligations.RegisterSkips := by
  refine ⟨fun w => decodeWord_registerSkip_illegal, fun x y s =>
    ⟨⟨?_, _, rfl, by simpa using skipIf_advance_spec s (s.reg x == s.reg y)⟩,
      ?_, _, rfl, by simpa using skipIf_advance_spec s (s.reg x != s.reg y)⟩⟩
  all_goals
    simp only [encode, toNat_encodeXY, BitVec.reduceToNat]
    omega

/-! ### RET and CALL -/

/-- The state after a RET whose return address is entry k. -/
def State.afterRet (k : Fin 16) (s : State) : State :=
  (s.advance.setStack s.stack k.castSucc).setPc s.stack[k]

/-- The state after a CALL that wrote entry k. -/
def State.afterCall (addr : Addr) (k : Fin 16) (s : State) : State :=
  (s.advance.setStack (s.stack.set k (s.pc + 2)) k.succ).setPc (addrOperand addr)

section CallRet

variable {addr : Addr} {k : Fin 16} {s : State}

theorem exec_ret (h : s.sp = k.succ) : exec .ret s = .next (s.afterRet k) := by
  have hpop : s.advance.pop = some (s.stack[k], s.advance.setStack s.stack k.castSucc) := by
    simp only [State.pop, State.advance_sp, h, Fin.val_succ, Nat.succ_pos, dif_pos, Nat.add_sub_cancel]
    rfl
  simp only [exec, execRet, hpop]
  rfl

theorem exec_ret_empty (h : s.sp = 0) : exec .ret s = faultAt .ret s .stackUnderflow .none := by
  have hpop : s.advance.pop = none := State.pop_eq_none.2 h
  simp only [exec, execRet, hpop]

theorem exec_call (h : s.sp = k.castSucc) : exec (.call addr) s = .next (s.afterCall addr k) := by
  have hpush : s.advance.push s.advance.pc = some (s.advance.setStack (s.stack.set k (s.pc + 2)) k.succ) := by
    simp only [State.push, State.advance_sp, h, Fin.val_castSucc, Config.stackDepth, k.isLt, dif_pos]
    rfl
  simp only [exec, execCall, hpush]
  rfl

theorem exec_call_full (h : s.sp = 16) : exec (.call addr) s = faultAt (.call addr) s .stackOverflow .none := by
  have hpush : s.advance.push s.advance.pc = none := State.push_eq_none.2 h
  simp only [exec, execCall, hpush]

/-- Everything RET can do (41_control_flow.md R121). -/
theorem exec_ret_cases (s : State) :
    (s.sp = 0 ∧ exec .ret s = faultAt .ret s .stackUnderflow .none) ∨
      ∃ k : Fin 16, s.sp = k.succ ∧ exec .ret s = .next (s.afterRet k) := by
  rcases Fin.eq_zero_or_eq_succ s.sp with h | ⟨k, h⟩
  · exact .inl ⟨h, exec_ret_empty h⟩
  · exact .inr ⟨k, h, exec_ret h⟩

/-- Everything CALL can do (41_control_flow.md R123). -/
theorem exec_call_cases (addr : Addr) (s : State) :
    (s.sp = 16 ∧ exec (.call addr) s = faultAt (.call addr) s .stackOverflow .none) ∨
      ∃ k : Fin 16, s.sp = k.castSucc ∧ exec (.call addr) s = .next (s.afterCall addr k) := by
  rcases Fin.eq_castSucc_or_eq_last s.sp with ⟨k, h⟩ | h
  · exact .inr ⟨k, h, exec_call h⟩
  · exact .inl ⟨h, exec_call_full h⟩

theorem stack_afterCall (j : Fin 16) :
    (s.afterCall addr k).stack[j] = if j = k then s.pc + 2 else s.stack[j] := by
  simp [State.afterCall, Vector.getElem_set, Fin.ext_iff, eq_comm]

end CallRet

/-- Settles O36: RET answers `State.afterRet` when an entry is in use, and else takes the fault. -/
theorem retPopsOrUnderflows : Obligations.RetPopsOrUnderflows := by
  refine ⟨by decide, fun s => ⟨fun k hsp => ?_, exec_ret_empty⟩⟩
  exact ⟨s.afterRet k, exec_ret (Fin.ext hsp), rfl, rfl, by simp [State.afterRet], rfl, rfl⟩

/-- Settles O37: CALL answers `State.afterCall` when an entry is free, and else takes the fault. -/
theorem callPushesOrOverflows : Obligations.CallPushesOrOverflows := by
  refine fun addr s => ⟨?_, fun k hsp => ?_, exec_call_full⟩
  · simp only [encode, toNat_encodeAddr, BitVec.reduceToNat, Nat.reduceMul]
  · refine ⟨s.afterCall addr k, exec_call (Fin.ext hsp), ?_, fun j hj => ?_, rfl, toNat_addrOperand addr, rfl, ?_⟩
    · rw [stack_afterCall, if_pos rfl]
    · rw [stack_afterCall, if_neg hj]
    · simp [State.afterCall]

/-- Settles O41: the entry that RET pops is the one CALL wrote. -/
theorem retComesBackAfterTheCall : Obligations.RetComesBackAfterTheCall := by
  intro addr s t u hfree hcall hstack hsp
  obtain ⟨k, hk⟩ : ∃ k : Fin 16, s.sp = k.castSucc := ⟨⟨s.sp, hfree⟩, rfl⟩
  obtain rfl : s.afterCall addr k = t := by simpa [exec_call hk] using hcall
  refine ⟨u.afterRet k, exec_ret hsp, ?_, hk.symm⟩
  calc (u.afterRet k).pc = u.stack[k] := rfl
    _ = (s.afterCall addr k).stack[k] := by rw [hstack]
    _ = s.pc + 2 := by rw [stack_afterCall, if_pos rfl]

/-! ### Where an instruction can leave PC -/

/-- PC after an instruction that answers a next state: at the instruction itself (a fault, or a key-wait without a
key), past it, past the word after it, or at the target of a jump, a call or a return. -/
def PcAfter (i : Instr) (s t : State) : Prop :=
  t.pc = s.pc ∨ t.pc = s.pc + 2 ∨ t.pc = s.pc + 4 ∨
    (∃ addr, (i = .jp addr ∨ i = .call addr) ∧ t.pc = addrOperand addr) ∨
    (∃ addr, i = .jpV0 addr ∧ t.pc = offsetTarget addr s) ∨
    (i = .ret ∧ ∃ k : Fin 16, s.sp = k.succ ∧ t.pc = s.stack[k])

theorem pcAfter_of_pc_eq {i : Instr} {s t : State} (h : t.pc = s.pc) : PcAfter i s t := .inl h

theorem pcAfter_of_advance {i : Instr} {s t : State} (h : t.pc = s.pc + 2) : PcAfter i s t := .inr (.inl h)

theorem pcAfter_skipIf_advance (i : Instr) (s : State) (c : Bool) : PcAfter i s (s.advance.skipIf c) := by
  rw [PcAfter, pc_skipIf_advance]
  cases c <;> simp

theorem exec_pcAfter {i : Instr} {s t : State} (h : exec i s = .next t) : PcAfter i s t := by
  cases i
  case jp addr => cases h; exact .inr (.inr (.inr (.inl ⟨addr, .inl rfl, rfl⟩)))
  case jpV0 addr => cases h; exact .inr (.inr (.inr (.inr (.inl ⟨addr, rfl, rfl⟩))))
  case call addr =>
    obtain ⟨-, hcall⟩ | ⟨k, -, hcall⟩ := exec_call_cases addr s <;> cases hcall.symm.trans h
    · exact pcAfter_of_pc_eq rfl
    · exact .inr (.inr (.inr (.inl ⟨addr, .inr rfl, rfl⟩)))
  case ret =>
    obtain ⟨-, hret⟩ | ⟨k, hk, hret⟩ := exec_ret_cases s <;> cases hret.symm.trans h
    · exact pcAfter_of_pc_eq rfl
    · exact .inr (.inr (.inr (.inr (.inr ⟨rfl, k, hk, rfl⟩))))
  case seImm | sneImm | seReg | sneReg => cases h; exact pcAfter_skipIf_advance ..
  case skp | sknp =>
    simp only [exec, execSkp, execSknp] at h
    split at h <;> cases h
    · exact pcAfter_of_pc_eq rfl
    · exact pcAfter_skipIf_advance ..
  case ldVxK =>
    simp only [exec, execLdVxK] at h
    split at h <;> cases h
    · exact pcAfter_of_pc_eq (BitVec.add_sub_cancel s.pc 2)
    · exact pcAfter_of_advance rfl
  case drw =>
    simp only [exec, execDrw] at h
    split at h
    · cases h; exact pcAfter_of_pc_eq rfl
    · split at h <;> cases h
      · exact pcAfter_of_pc_eq rfl
      · exact pcAfter_of_advance rfl
  case ldB | ldMemVx | ldVxMem =>
    simp only [exec, execLdB, execLdMemVx, execLdVxMem] at h
    split at h <;> cases h
    · exact pcAfter_of_pc_eq rfl
    · exact pcAfter_of_advance rfl
  all_goals cases h; exact pcAfter_of_advance rfl

/-! ### PC never wraps -/

/-- The return addresses in use are at most 0x1000, the second half of `PcBounded`. -/
def StackBounded (s : State) : Prop := ∀ j : Fin 16, j.val < s.sp.val → (s.stack[j]).toNat ≤ 0x1000

theorem pcBounded_iff {s : State} : PcBounded s ↔ s.pc.toNat ≤ 0x10FE ∧ StackBounded s := Iff.rfl

theorem pcBounded_enterFault {s : State} {r : FaultRecord} : PcBounded (s.enterFault r) ↔ PcBounded s := Iff.rfl

/-- An instruction word lies within memory. -/
theorem pc_lt_of_nextInstr {s : State} {i : Instr} (h : nextInstr s = some i) : s.pc.toNat < 4095 := by
  obtain ⟨w, hfetch, -⟩ := nextInstr_eq_some.1 h
  obtain ⟨-, herr⟩ | ⟨hlt, -⟩ := fetch_cases s
  · cases herr.symm.trans hfetch
  · exact hlt

theorem stack_mem_writes {i : Instr} : .stack ∈ i.writes ↔ i = .ret ∨ ∃ addr, i = .call addr := by
  cases i <;> simp [Instr.writes]

section PcBound

variable {i : Instr} {s t : State} (hpc : s.pc.toNat < 4095) (hstack : StackBounded s) (h : exec i s = .next t)
include hpc hstack h

/-- The largest target is that of JP V0, addr: 0xFFF + 0xFF. -/
theorem pc_le_of_exec : t.pc.toNat ≤ 0x10FE := by
  obtain heq | heq | heq | ⟨addr, -, heq⟩ | ⟨addr, -, heq⟩ | ⟨-, k, hk, heq⟩ := exec_pcAfter h <;> rw [heq]
  · omega
  · bv_omega
  · bv_omega
  · rw [toNat_addrOperand]; omega
  · rw [toNat_offsetTarget]; omega
  · have hentry := hstack k (by simp [hk])
    omega

/-- RET takes an entry out of use, and the one that CALL writes is the address after an instruction in memory. -/
theorem stackBounded_of_exec : StackBounded t := by
  by_cases hw : .stack ∈ i.writes
  · obtain rfl | ⟨addr, rfl⟩ := stack_mem_writes.1 hw
    · obtain ⟨-, hret⟩ | ⟨k, hk, hret⟩ := exec_ret_cases s <;> cases hret.symm.trans h
      · exact hstack
      · exact fun j hj => hstack j (hj.trans (by simp [State.afterRet, hk]))
    · obtain ⟨-, hcall⟩ | ⟨k, hk, hcall⟩ := exec_call_cases addr s <;> cases hcall.symm.trans h
      · exact hstack
      · intro j hj
        rw [stack_afterCall]
        split
        · bv_omega
        · next hne =>
          have hle : j.val < k.val + 1 := hj
          exact hstack j (by simp [hk]; omega)
  · obtain ⟨hentries, hsp⟩ := exec_keepsAllBut h .stack (by simp [hw])
    rwa [StackBounded, hentries, hsp]

end PcBound

/-- Settles O18: a fault leaves PC and the stack alone, and an instruction that runs lies below 4095. -/
theorem stepKeepsPcFromWrapping : Obligations.StepKeepsPcFromWrapping := by
  intro s t hs h
  refine ⟨?_, fun i hi => by have := pc_lt_of_nextInstr hi; omega⟩
  obtain ⟨-, ⟨-, rfl⟩ | ⟨-, -, rfl⟩ | ⟨_, -, -, rfl⟩ | ⟨hpc, i, -, hexec⟩⟩ := step_inversion h
  · exact pcBounded_enterFault.2 hs
  · exact pcBounded_enterFault.2 hs
  · exact pcBounded_enterFault.2 hs
  · have hstack := (pcBounded_iff.1 hs).2
    exact pcBounded_iff.2 ⟨pc_le_of_exec hpc hstack hexec, stackBounded_of_exec hpc hstack hexec⟩

end Sys2Proof.Machine
end

section
/-! PROOFS. The ALU family (42_alu.md), and the registers that each instruction may write (10_state.md R23). -/

namespace Sys2Proof

/-- The registers an instruction may write: the one its destination field names, VF where it writes a flag, and V0 to Vx
for LD Vx, [I]. -/
def Instr.destinations : Instr → List Reg
  | .ldImm x _ | .addImm x _ | .ldReg x _ | .or x _ | .and x _ | .xor x _ | .rnd x _ | .ldVxDt x | .ldVxK x => [x]
  | .addReg x _ | .sub x _ | .shr x _ | .subn x _ | .shl x _ => [x, vF]
  | .drw _ _ _ => [vF]
  | .ldVxMem x => (List.finRange 16).filter (· ≤ x)
  | _ => []

/-- Format XYS in group 8 (30_encoding.md R75). -/
theorem toNat_encodeXY_group8 (x y : Reg) (d4 : BitVec 4) :
    (encodeXY 0x8 x y d4).toNat = 0x8000 + d4.toNat + 256 * x.val + 16 * y.val := by
  simp only [toNat_encodeXY, BitVec.reduceToNat]
  omega

/-- Format XKK (30_encoding.md R75), its fields scaled as 42_alu.md writes them. -/
theorem toNat_encodeXKk_mul_left (d1 : BitVec 4) (x : Reg) (kk : Byte) :
    (encodeXKk d1 x kk).toNat = 4096 * d1.toNat + 256 * x.val + kk.toNat := by
  rw [toNat_encodeXKk, Nat.mul_comm 4096, Nat.mul_comm 256]

end Sys2Proof

namespace Sys2Proof.Machine

/-! ### What a result without and with a flag leaves alone -/

section Results

variable {s : State} {x : Reg} {b : Byte} {c : Bool}

theorem keepsRegsBut_setReg : KeepsRegsBut [x] s (s.setReg x b) := by
  intro r hr
  rw [State.reg_setReg, if_neg (by simpa using hr)]

theorem reg_writeWithFlag_vF : (s.writeWithFlag x b c).reg vF = flagByte c := by
  rw [State.reg_writeWithFlag, if_pos rfl]

theorem reg_writeWithFlag_of_ne (h : x ≠ vF) : (s.writeWithFlag x b c).reg x = b := by
  rw [State.reg_writeWithFlag, if_neg h, if_pos rfl]

theorem keepsRegsBut_writeWithFlag : KeepsRegsBut [x, vF] s (s.writeWithFlag x b c) := by
  intro r hr
  obtain ⟨hx, hvF⟩ : r ≠ x ∧ r ≠ vF := by simpa using hr
  rw [State.reg_writeWithFlag, if_neg hvF, if_neg hx]

/-- The frame of an instruction that writes Vx and no flag. -/
theorem setReg_advance_frame :
    KeepsRegsBut [x] s (s.advance.setReg x b) ∧ KeepsAllBut [.regs] s (s.advance.setReg x b) ∧
      ContinuesAt (s.pc + 2) (s.advance.setReg x b) :=
  ⟨keepsRegsBut_setReg (s := s.advance), by simp, rfl, rfl⟩

/-- The frame of an instruction that writes Vx and then a flag. -/
theorem writeWithFlag_advance_frame :
    KeepsRegsBut [x, vF] s (s.advance.writeWithFlag x b c) ∧ KeepsAllBut [.regs] s (s.advance.writeWithFlag x b c) ∧
      ContinuesAt (s.pc + 2) (s.advance.writeWithFlag x b c) :=
  ⟨keepsRegsBut_writeWithFlag (s := s.advance), by simp [State.writeWithFlag], rfl, rfl⟩

end Results

/-! ### The flags as numbers -/

theorem toNat_flagByte_carryOut (a b : Byte) :
    (flagByte (carryOut a b)).toNat = if 256 ≤ a.toNat + b.toNat then 1 else 0 := by
  simp only [toNat_flagByte, carryOut_eq_true]

theorem toNat_flagByte_noBorrow (a b : Byte) :
    (flagByte (noBorrow a b)).toNat = if b.toNat ≤ a.toNat then 1 else 0 := by
  simp only [toNat_flagByte, noBorrow_eq_true]

theorem toNat_flagByte_shiftedOutRight (a : Byte) : (flagByte (shiftedOutRight a)).toNat = a.toNat % 2 := by
  simp only [toNat_flagByte, shiftedOutRight, BitVec.getLsbD, Nat.testBit_zero, decide_eq_true_eq]
  split <;> omega

theorem toNat_flagByte_shiftedOutLeft (a : Byte) : (flagByte (shiftedOutLeft a)).toNat = a.toNat / 128 := by
  simp only [toNat_flagByte, shiftedOutLeft, BitVec.getLsbD, Nat.testBit_eq_decide_div_mod_eq, decide_eq_true_eq]
  split <;> omega

/-- A difference modulo 256, with the borrow added before the subtraction. -/
theorem toNat_sub_byte (a b : Byte) : (a - b).toNat = (a.toNat + 256 - b.toNat) % 256 := by
  bv_omega

/-! ### The instructions that write a flag -/

/-- Settles O30: `carryOut` is the carry of the operands before the instruction, and the flag write comes last. -/
theorem addSetsCarryLast : Obligations.AddSetsCarryLast := by
  refine fun x y s => ⟨toNat_encodeXY_group8 x y 4, _, rfl, fun hx => ?_, ?_, writeWithFlag_advance_frame⟩
  · rw [reg_writeWithFlag_of_ne hx, BitVec.toNat_add]
  · rw [reg_writeWithFlag_vF, toNat_flagByte_carryOut]

/-- Settles O31: the difference and the flag are those of Vx and Vy before the instruction. -/
theorem subSetsNoBorrowLast : Obligations.SubSetsNoBorrowLast := by
  refine fun x y s => ⟨toNat_encodeXY_group8 x y 5, _, rfl, fun hx => ?_, ?_, writeWithFlag_advance_frame⟩
  · rw [reg_writeWithFlag_of_ne hx, toNat_sub_byte]
  · rw [reg_writeWithFlag_vF, toNat_flagByte_noBorrow]

/-- Settles O32: SUB with its operands exchanged. -/
theorem subnSetsNoBorrowLast : Obligations.SubnSetsNoBorrowLast := by
  refine fun x y s => ⟨toNat_encodeXY_group8 x y 7, _, rfl, fun hx => ?_, ?_, writeWithFlag_advance_frame⟩
  · rw [reg_writeWithFlag_of_ne hx, toNat_sub_byte]
  · rw [reg_writeWithFlag_vF, toNat_flagByte_noBorrow]

/-- Settles O33: the shift halves Vx and its bit 0 is the remainder; no operand of the result is y. -/
theorem shrShiftsVxInPlace : Obligations.ShrShiftsVxInPlace := by
  intro x y s
  obtain ⟨hregs, hparts, hpc⟩ := writeWithFlag_advance_frame (s := s) (x := x)
    (b := s.reg x >>> 1) (c := shiftedOutRight (s.reg x))
  refine ⟨toNat_encodeXY_group8 x y 6, _, rfl, fun hx => ?_, ?_, hregs, hparts, hpc, fun y' => rfl⟩
  · rw [reg_writeWithFlag_of_ne hx, BitVec.toNat_ushiftRight, Nat.shiftRight_one]
  · rw [reg_writeWithFlag_vF, toNat_flagByte_shiftedOutRight]

/-- Settles O34: the shift doubles Vx and its bit 7 is the quotient by 128; no operand of the result is y. -/
theorem shlShiftsVxInPlace : Obligations.ShlShiftsVxInPlace := by
  intro x y s
  obtain ⟨hregs, hparts, hpc⟩ := writeWithFlag_advance_frame (s := s) (x := x)
    (b := s.reg x <<< 1) (c := shiftedOutLeft (s.reg x))
  refine ⟨toNat_encodeXY_group8 x y 0xE, _, rfl, fun hx => ?_, ?_, hregs, hparts, hpc, fun y' => rfl⟩
  · rw [reg_writeWithFlag_of_ne hx, BitVec.toNat_shiftLeft, Nat.shiftLeft_eq, Nat.pow_one]
  · rw [reg_writeWithFlag_vF, toNat_flagByte_shiftedOutLeft]

/-! ### The instructions that write no flag -/

/-- Settles O29: the one register written is Vx, and the operation works on each bit of the operands. -/
theorem logicWorksBitByBitWithoutFlag : Obligations.LogicWorksBitByBitWithoutFlag := by
  refine fun x y s => ⟨⟨toNat_encodeXY_group8 x y 1, _, rfl, fun k => ?_, setReg_advance_frame⟩,
    ⟨toNat_encodeXY_group8 x y 2, _, rfl, fun k => ?_, setReg_advance_frame⟩,
    ⟨toNat_encodeXY_group8 x y 3, _, rfl, fun k => ?_, setReg_advance_frame⟩⟩
  · rw [State.reg_setReg, if_pos rfl, BitVec.getLsbD_or]
  · rw [State.reg_setReg, if_pos rfl, BitVec.getLsbD_and]
  · rw [State.reg_setReg, if_pos rfl, BitVec.getLsbD_xor]

/-- Settles O27: each writes Vx alone. -/
theorem loadsCopyTheirOperand : Obligations.LoadsCopyTheirOperand := by
  refine fun x y kk s => ⟨⟨toNat_encodeXKk_mul_left 6 x kk, _, rfl, ?_, setReg_advance_frame⟩,
    ⟨toNat_encodeXY_group8 x y 0, _, rfl, ?_, setReg_advance_frame⟩⟩
  all_goals rw [State.reg_setReg, if_pos rfl]

/-- Settles O28: the sum of two bytes is modulo 256, and Vx alone is written. -/
theorem addImmediateWrapsWithoutFlag : Obligations.AddImmediateWrapsWithoutFlag := by
  refine fun x kk s => ⟨toNat_encodeXKk_mul_left 7 x kk, _, rfl, ?_, setReg_advance_frame⟩
  rw [State.reg_setReg, if_pos rfl, BitVec.toNat_add]

/-- Settles O35: the draw moves the counter alone, and then RND writes Vx like any instruction without a flag. -/
theorem rndMasksAFreshDraw : Obligations.RndMasksAFreshDraw := by
  intro x kk s
  obtain ⟨hregs, -, hpc⟩ := setReg_advance_frame (s := s.draw.2) (x := x) (b := s.draw.1 &&& kk)
  refine ⟨toNat_encodeXKk_mul_left 0xC x kk, _, rfl, fun k => ?_, rfl, hregs, by simp, hpc⟩
  rw [State.reg_setReg, if_pos rfl, BitVec.getLsbD_and, State.draw_fst]

/-! ### Which instructions write VF -/

/-- An instruction changes no register but its destinations: one that does not write the registers keeps them all, and
the others write through `State.setReg`, `State.writeWithFlag` or `State.loadRegs`, or take a fault. -/
theorem exec_keepsRegsBut {i : Instr} {s t : State} (h : exec i s = .next t) : KeepsRegsBut i.destinations s t := by
  by_cases hw : .regs ∈ i.writes
  case neg => exact fun r _ => exec_keepsAllBut h .regs (by simp [hw]) r
  cases i
  case ldImm | addImm | ldReg | or | and | xor | rnd | ldVxDt => cases h; exact keepsRegsBut_setReg
  case addReg | sub | shr | subn | shl => cases h; exact keepsRegsBut_writeWithFlag
  case ldVxK =>
    simp only [exec, execLdVxK] at h
    split at h <;> cases h
    · exact fun r _ => rfl
    · exact keepsRegsBut_setReg
  case drw =>
    simp only [exec, execDrw] at h
    split at h
    · cases h; exact fun r _ => rfl
    · split at h <;> cases h
      · exact fun r _ => rfl
      · exact keepsRegsBut_setReg
  case ldVxMem x =>
    simp only [exec, execLdVxMem] at h
    split at h <;> cases h
    · exact fun r _ => rfl
    · intro r hr
      have hgt : ¬ r ≤ x := by simpa [Instr.destinations] using hr
      simp [hgt]
  all_goals simp [Instr.writes] at hw

/-- VF is the last register, so LD Vx, [I] loads it only for x = 0xF. -/
theorem vF_mem_destinations {i : Instr} (h : vF ∈ i.destinations) :
    (∃ x y, i ∈ [.addReg x y, .sub x y, .shr x y, .subn x y, .shl x y]) ∨ (∃ x y n, i = .drw x y n) ∨
      (∃ kk, i ∈ [.ldImm vF kk, .addImm vF kk, .rnd vF kk]) ∨
      (∃ y, i ∈ [.ldReg vF y, .or vF y, .and vF y, .xor vF y]) ∨ i ∈ [.ldVxDt vF, .ldVxK vF, .ldVxMem vF] := by
  cases i
  case ldVxMem x =>
    have hx : x = vF := Fin.last_le_iff.1 (by simpa [Instr.destinations] using h)
    simp [hx]
  case addReg | sub | shr | subn | shl | drw => simp
  case ldImm | addImm | ldReg | or | and | xor | rnd | ldVxDt | ldVxK =>
    obtain rfl := List.mem_singleton.1 h
    simp
  all_goals simp [Instr.destinations] at h

/-- Settles O25: a fault keeps every register, and an instruction that ran keeps VF unless it is a destination. -/
theorem onlyFlagInstructionsWriteVfUnnamed : Obligations.OnlyFlagInstructionsWriteVfUnnamed := by
  intro s t h hvF
  obtain ⟨-, ⟨-, rfl⟩ | ⟨-, -, rfl⟩ | ⟨_, -, -, rfl⟩ | ⟨-, i, hi, hexec⟩⟩ := step_inversion h
  · exact absurd rfl hvF
  · exact absurd rfl hvF
  · exact absurd rfl hvF
  · refine ⟨i, hi, vF_mem_destinations ?_⟩
    by_contra hnot
    exact hvF (exec_keepsRegsBut hexec vF hnot)

end Sys2Proof.Machine
end

section
/-! PROOFS. The index register and memory family (43_index_memory.md), and which instructions may change I
(10_state.md R24) and memory (20_memory.md R52). -/

namespace Sys2Proof

/-- Format XOP in group F (30_encoding.md R75): the sub-operation byte stands where other formats have kk. -/
theorem toNat_encodeXKk_groupF (x : Reg) (kk : Byte) :
    (encodeXKk 0xF x kk).toNat = 0xF000 + kk.toNat + 256 * x.val := by
  simp only [toNat_encodeXKk, BitVec.reduceToNat]
  omega

end Sys2Proof

namespace Sys2Proof.Machine

/-! ### The instructions that write I -/

/-- The frame of an instruction that writes I alone. -/
theorem setI_advance_frame {s : State} {a : Word} :
    KeepsAllBut [.index] s (s.advance.setI a) ∧ ContinuesAt (s.pc + 2) (s.advance.setI a) :=
  ⟨by simp, rfl, rfl⟩

/-- Settles O47: the address zero-extended is the same number. -/
theorem ldILoadsTheAddress : Obligations.LdILoadsTheAddress :=
  fun addr s => ⟨toNat_encodeAddr 0xA addr, s.advance.setI (addrOperand addr), rfl, toNat_addrOperand addr,
    setI_advance_frame⟩

/-- Settles O48: the sum is modulo 2^16, and 5 times a byte stays below it. -/
theorem addIAndLdFComputeI : Obligations.AddIAndLdFComputeI := by
  refine fun x s =>
    ⟨⟨toNat_encodeXKk_groupF x 0x1E, s.advance.setI (s.i + (s.reg x).zeroExtend 16), rfl, ?_, setI_advance_frame⟩,
      toNat_encodeXKk_groupF x 0x29, s.advance.setI (glyphAddr (s.reg x)), rfl, toNat_glyphAddr (s.reg x),
      setI_advance_frame⟩
  rw [State.setI_i]
  bv_omega

theorem index_mem_writes {i : Instr} :
    .index ∈ i.writes ↔ (∃ addr, i = .ldI addr) ∨ (∃ x, i = .addI x) ∨ ∃ x, i = .ldF x := by
  cases i <;> simp [Instr.writes]

/-- Settles O21: the instruction of a step that changes I writes the index, and only these three do. -/
theorem onlyThreeInstructionsWriteI : Obligations.OnlyThreeInstructionsWriteI := by
  intro s t h hindex
  obtain ⟨i, hi, hw⟩ := mem_writes_of_step (p := .index) h (by decide) hindex
  simpa [hi] using index_mem_writes.1 hw

/-! ### The access to memory at I -/

/-- What LD B, LD [I] and LD Vx, [I] share (43_index_memory.md R173 to R175): they go on with t when the bytes at I up
to byte `last` exist, and else take the fault of the instruction i, with the lowest address that does not. -/
def accessAtI (i : Instr) (last : Nat) (s t : State) : StepResult :=
  if memAtI s last < 4096 then .next t
  else .next (s.enterFault ⟨.outOfBounds, some s.pc, some (encode i), .addr (max s.i.toNat 4096)⟩)

/-- The state after an instruction that stores bs at I and raises nothing. -/
def State.storeAtI (bs : List Byte) (s : State) : State := s.advance.storeBytes (memAtI s 0) bs

section AccessAtI

variable {i : Instr} {last k a : Nat} {bs : List Byte} {x : Reg} {s t u : State}

theorem memAtI_congr (h : u.i = s.i) : memAtI u k = memAtI s k := by
  rw [memAtI, memAtI, h]

theorem memAtI_mono {j : Nat} (h : j ≤ k) : memAtI s j ≤ memAtI s k := Nat.add_le_add_left h _

theorem accessAtI_of_lt (h : memAtI s last < 4096) : accessAtI i last s t = .next t := if_pos h

theorem accessAtI_of_le (h : 4096 ≤ memAtI s last) :
    accessAtI i last s t =
      .next (s.enterFault ⟨.outOfBounds, some s.pc, some (encode i), .addr (max s.i.toNat 4096)⟩) :=
  if_neg (Nat.not_lt.2 h)

/-- The bounds check of the model, on the bytes at I up to byte `last`. -/
theorem firstOutOfBounds_memAtI :
    firstOutOfBounds (memAtI s 0) (last + 1) = if memAtI s last < 4096 then none else some (max s.i.toNat 4096) := by
  split
  · next hlt => exact firstOutOfBounds_eq_none.2 (.inr hlt)
  · next hge => exact firstOutOfBounds_eq_some.2 ⟨last.succ_pos, Nat.lt_succ_of_le (Nat.not_lt.1 hge), rfl⟩

theorem exec_ldB : exec (.ldB x) s = accessAtI (.ldB x) 2 s (s.storeAtI (bcdDigits (s.reg x))) := by
  rw [exec, execLdB, firstOutOfBounds_memAtI, accessAtI]
  by_cases h : memAtI s 2 < 4096 <;> simp only [h, if_true, if_false, faultAt_eq, State.storeAtI]

theorem exec_ldMemVx : exec (.ldMemVx x) s = accessAtI (.ldMemVx x) x s (s.storeAtI (regsUpTo x s)) := by
  rw [exec, execLdMemVx, firstOutOfBounds_memAtI, accessAtI]
  by_cases h : memAtI s x < 4096 <;> simp only [h, if_true, if_false, faultAt_eq, State.storeAtI]

theorem exec_ldVxMem : exec (.ldVxMem x) s = accessAtI (.ldVxMem x) x s (s.advance.loadRegs x) := by
  rw [exec, execLdVxMem, firstOutOfBounds_memAtI, accessAtI]
  by_cases h : memAtI s x < 4096 <;> simp only [h, if_true, if_false, faultAt_eq]

/-! ### What a store leaves in memory -/

theorem read_storeAtI (hk : k < bs.length) : (s.storeAtI bs).mem.read (memAtI s k) = bs[k] := by
  simp [State.storeAtI, Memory.read_writeBytes, memAtI, hk]

theorem read_storeAtI_of_ne (h : ∀ k, k < bs.length → a ≠ memAtI s k) :
    (s.storeAtI bs).mem.read a = s.mem.read a := by
  rw [State.storeAtI, State.storeBytes_mem, Memory.read_writeBytes, dif_neg, State.advance_mem]
  rintro ⟨hge, hlt⟩
  exact h _ hlt (Nat.add_sub_of_le hge).symm

theorem storeAtI_frame : KeepsAllBut [.memory] s (s.storeAtI bs) ∧ ContinuesAt (s.pc + 2) (s.storeAtI bs) :=
  ⟨by simp [State.storeAtI], rfl, rfl⟩

/-- The registers V0 to Vx stored at I (43_index_memory.md R174). -/
theorem read_storeAtI_regsUpTo {j : Reg} (hj : j ≤ x) :
    (s.storeAtI (regsUpTo x s)).mem.read (memAtI s j) = s.reg j := by
  have hlt : j.val < (regsUpTo x s).length := by
    rw [length_regsUpTo]
    exact Nat.lt_succ_of_le hj
  rw [read_storeAtI hlt, getElem_regsUpTo]

/-- A store of the bytes up to byte `last` changes no byte outside them. -/
theorem between_of_read_ne (hlen : bs.length = last + 1) (hexec : accessAtI i last s (s.storeAtI bs) = .next t)
    (hread : t.mem.read a ≠ s.mem.read a) : memAtI s 0 ≤ a ∧ a ≤ memAtI s last := by
  by_cases hlt : memAtI s last < 4096
  · cases (accessAtI_of_lt hlt).symm.trans hexec
    by_contra hout
    refine hread (read_storeAtI_of_ne fun k hk => ?_)
    rintro rfl
    exact hout ⟨memAtI_mono k.zero_le, memAtI_mono (by omega)⟩
  · cases (accessAtI_of_le (Nat.not_lt.1 hlt)).symm.trans hexec
    exact absurd rfl hread

end AccessAtI

/-! ### LD B, LD [I] and LD Vx, [I] -/

theorem toNat_bcdDigits (b : Byte) :
    (bcdDigits b)[0].toNat = b.toNat / 100 ∧ (bcdDigits b)[1].toNat = b.toNat / 10 % 10 ∧
      (bcdDigits b)[2].toNat = b.toNat % 10 := by
  simp only [bcdDigits, List.getElem_cons_zero, List.getElem_cons_succ, BitVec.toNat_ofNat]
  omega

/-- Settles O49: the three bytes stored at I are the digits of Vx. -/
theorem ldBStoresTheDigits : Obligations.LdBStoresTheDigits := by
  refine fun x s => ⟨toNat_encodeXKk_groupF x 0x33, fun hlt => ?_, fun hle => exec_ldB.trans (accessAtI_of_le hle)⟩
  obtain ⟨hhundreds, htens, hones⟩ := toNat_bcdDigits (s.reg x)
  have hread (k : Nat) (hk : k < 3) :
      (s.storeAtI (bcdDigits (s.reg x))).mem.read (memAtI s k) = (bcdDigits (s.reg x))[k] := read_storeAtI hk
  refine ⟨_, exec_ldB.trans (accessAtI_of_lt hlt), ?_, ?_, ?_, fun a hne => read_storeAtI_of_ne hne, storeAtI_frame⟩
  · rw [hread 0 (by decide), hhundreds]
  · rw [hread 1 (by decide), htens]
  · rw [hread 2 (by decide), hones]

/-- Settles O50: byte k stored at I is Vk. -/
theorem ldMemStoresTheRegisters : Obligations.LdMemStoresTheRegisters := by
  refine fun x s =>
    ⟨toNat_encodeXKk_groupF x 0x55, fun hlt => ?_, fun hle => exec_ldMemVx.trans (accessAtI_of_le hle)⟩
  refine ⟨_, exec_ldMemVx.trans (accessAtI_of_lt hlt), fun k => read_storeAtI_regsUpTo, fun a hne => ?_,
    storeAtI_frame⟩
  refine read_storeAtI_of_ne fun k hk => ?_
  rw [length_regsUpTo] at hk
  exact hne ⟨k, by omega⟩ (Nat.le_of_lt_succ hk)

/-- Settles O51: `State.loadRegs` replaces V0 to Vx by the bytes at I. -/
theorem ldVxMemLoadsTheRegisters : Obligations.LdVxMemLoadsTheRegisters := by
  refine fun x s =>
    ⟨toNat_encodeXKk_groupF x 0x65, fun hlt => ?_, fun hle => exec_ldVxMem.trans (accessAtI_of_le hle)⟩
  refine ⟨_, exec_ldVxMem.trans (accessAtI_of_lt hlt), fun k hk => ?_, fun k hk => ?_, by simp, by simp, by simp⟩
  · rw [State.reg_loadRegs, if_pos hk]
    rfl
  · rw [State.reg_loadRegs, if_neg (not_le.2 hk)]
    rfl

/-- Settles O52: I is kept, so the bytes loaded are those that the store wrote. -/
theorem loadAfterStoreRestoresTheRegisters : Obligations.LoadAfterStoreRestoresTheRegisters := by
  intro x s t u hlt hstore hmem hindex
  cases (exec_ldMemVx.trans (accessAtI_of_lt hlt)).symm.trans hstore
  have hmemAtI (k : Nat) : memAtI u k = memAtI s k := memAtI_congr hindex
  refine ⟨_, exec_ldVxMem.trans (accessAtI_of_lt (by rwa [hmemAtI])), fun k hk => ?_⟩
  calc (u.advance.loadRegs x).reg k
    _ = u.mem.read (memAtI u k) := by rw [State.reg_loadRegs, if_pos hk, State.advance_mem, memAtI_advance]
    _ = (s.storeAtI (regsUpTo x s)).mem.read (memAtI s k) := by rw [hmem, hmemAtI]
    _ = s.reg k := read_storeAtI_regsUpTo hk

/-! ### Which instructions change memory -/

/-- A step runs the next instruction. -/
theorem exec_of_step {i : Instr} {s t : State} (h : step s = .next t) (hi : nextInstr s = some i) :
    exec i s = .next t := by
  obtain ⟨w, hfetch, hdecode⟩ := nextInstr_eq_some.1 hi
  rw [← h]
  simp [step, fault_none_of_step h, hfetch, not_haltSentinel_of_decode hdecode, hdecode]

theorem memory_mem_writes {i : Instr} : .memory ∈ i.writes ↔ (∃ x, i = .ldB x) ∨ ∃ x, i = .ldMemVx x := by
  cases i <;> simp [Instr.writes]

/-- Settles O22: the instruction of a step that changes memory is one of the two stores, and each changes only the bytes
it stores. -/
theorem onlyStoresWriteMemory : Obligations.OnlyStoresWriteMemory := by
  intro s t a h hread
  obtain ⟨i, hi, hw⟩ := mem_writes_of_step (p := .memory) h (by decide) fun hkeep => hread (hkeep a)
  have hexec := exec_of_step h hi
  obtain ⟨x, rfl⟩ | ⟨x, rfl⟩ := memory_mem_writes.1 hw
  · exact .inl ⟨x, hi, between_of_read_ne (length_bcdDigits _) (exec_ldB.symm.trans hexec) hread⟩
  · exact .inr ⟨x, hi, between_of_read_ne (length_regsUpTo x s) (exec_ldMemVx.symm.trans hexec) hread⟩

end Sys2Proof.Machine
end

section
/-! PROOFS. The timer and key family (44_timers_keys.md). -/

namespace Sys2Proof

/-- Format XOP in group E (30_encoding.md R75): the sub-operation byte stands where other formats have kk. -/
theorem toNat_encodeXKk_groupE (x : Reg) (kk : Byte) :
    (encodeXKk 0xE x kk).toNat = 0xE000 + kk.toNat + 256 * x.val := by
  simp only [toNat_encodeXKk, BitVec.reduceToNat]
  omega

end Sys2Proof

namespace Sys2Proof.Machine

section TimersKeys

variable {x : Reg} {k : Key} {s : State}

/-! ### SKP and SKNP -/

theorem exec_skp_of_key (h : (s.reg x).toNat = k.val) :
    exec (.skp x) s = .next (s.advance.skipIf (s.key k)) := by
  simp only [exec, execSkp, (keyOperand_eq_some _ k).2 h]

theorem exec_sknp_of_key (h : (s.reg x).toNat = k.val) :
    exec (.sknp x) s = .next (s.advance.skipIf (!s.key k)) := by
  simp only [exec, execSknp, (keyOperand_eq_some _ k).2 h]

theorem exec_skp_of_no_key (h : 15 < (s.reg x).toNat) :
    exec (.skp x) s = faultAt (.skp x) s .keyIndexOutOfRange (.value (s.reg x)) := by
  simp only [exec, execSkp, (keyOperand_eq_none _).2 h]

theorem exec_sknp_of_no_key (h : 15 < (s.reg x).toNat) :
    exec (.sknp x) s = faultAt (.sknp x) s .keyIndexOutOfRange (.value (s.reg x)) := by
  simp only [exec, execSknp, (keyOperand_eq_none _).2 h]

/-! ### LD Vx, K -/

theorem exec_ldVxK_of_pressed (hk : s.key k = true) (hlow : ∀ j, j < k → s.key j = false) :
    exec (.ldVxK x) s = .next (s.advance.setReg x (BitVec.ofNat 8 k.val)) := by
  simp only [exec, execLdVxK, (lowestPressed_eq_some s k).2 ⟨hk, hlow⟩]

/-- The key-wait without a key takes back the advance of PC (44_timers_keys.md R193). -/
theorem exec_ldVxK_of_none_pressed (h : ∀ k, s.key k = false) :
    exec (.ldVxK x) s = .next (s.advance.setPc s.pc) := by
  have hback : s.advance.pc - 2 = s.pc := BitVec.add_sub_cancel s.pc 2
  simp only [exec, execLdVxK, (lowestPressed_eq_none s).2 h, hback]

end TimersKeys

/-- Settles O54: with a key named, each is a skip on whether it is pressed; without one, each is the fault. -/
theorem keySkips : Obligations.KeySkips := by
  refine fun x s => ⟨toNat_encodeXKk_groupE x 0x9E, toNat_encodeXKk_groupE x 0xA1, fun k hk => ⟨?_, ?_⟩,
    fun h => ⟨exec_skp_of_no_key h, exec_sknp_of_no_key h⟩⟩
  · exact ⟨_, exec_skp_of_key hk, skipIf_advance_spec s (s.key k)⟩
  · exact ⟨_, exec_sknp_of_key hk, by simpa using skipIf_advance_spec s (!s.key k)⟩

/-- Settles O56: the scan finds the lowest pressed key, whose index is a byte; without one PC is back at the
instruction. -/
theorem keyWaitTakesTheLowestKeyOrRepeats : Obligations.KeyWaitTakesTheLowestKeyOrRepeats := by
  refine fun x s => ⟨toNat_encodeXKk_groupF x 0x0A, fun k hk hlow => ?_, fun hnone => ?_⟩
  · refine ⟨_, exec_ldVxK_of_pressed hk hlow, ?_, setReg_advance_frame⟩
    rw [State.reg_setReg, if_pos rfl, BitVec.toNat_ofNat]
    omega
  · exact ⟨_, exec_ldVxK_of_none_pressed hnone, by simp, rfl, rfl⟩

/-! ### The timer moves -/

/-- Settles O55: each writes one part of the state, with the value of the other operand. -/
theorem timerMoves : Obligations.TimerMoves := by
  refine fun x s => ⟨⟨toNat_encodeXKk_groupF x 0x07, _, rfl, ?_, setReg_advance_frame⟩,
    ⟨toNat_encodeXKk_groupF x 0x15, s.advance.setDt (s.reg x), rfl, rfl, by simp, rfl, rfl⟩,
    ⟨toNat_encodeXKk_groupF x 0x18, s.advance.setSt (s.reg x), rfl, rfl, by simp, rfl, rfl⟩⟩
  rw [State.reg_setReg, if_pos rfl]

end Sys2Proof.Machine
end

section
/-! PROOFS. The tick and set_key transactions (60_exceptions.md R223, R229). -/

namespace Sys2Proof.Machine

/-- Natural subtraction stops at 0, as a timer does. -/
theorem toNat_countDown (b : Byte) : (countDown b).toNat = b.toNat - 1 := by
  unfold countDown
  split
  next hzero => simp [hzero]
  next hpos => bv_omega

theorem tick_of_fault_eq_none {s : State} (h : s.fault = none) :
    tick s = .next { s with dt := countDown s.dt, st := countDown s.st } := by
  simp only [tick, h]

/-- Settles O57: each timer counts down by itself. -/
theorem tickCountsBothTimersDown : Obligations.TickCountsBothTimersDown :=
  fun s h => ⟨_, tick_of_fault_eq_none h, toNat_countDown s.dt, toNat_countDown s.st, rfl⟩

theorem setKey_of_fault_eq_none {s : State} (h : s.fault = none) (k : Key) (pressed : Bool) :
    setKey k pressed s = .next { s with keys := s.keys.set k pressed } := by
  simp only [setKey, h]

/-- Settles O58: a read of the key state after the write sees the written key at `k` and the old one elsewhere. -/
theorem setKeyWritesOneKey : Obligations.SetKeyWritesOneKey := by
  refine fun s k pressed h => ⟨_, setKey_of_fault_eq_none h k pressed, ?_, fun j hj => ?_, rfl⟩
  · exact Vector.getElem_set_self k.isLt
  · exact Vector.getElem_set_ne k.isLt j.isLt (Fin.val_ne_of_ne hj.symm)

end Sys2Proof.Machine
end

section
/-! PROOFS. The decoder, the encoder and the opcode table agree (30_encoding.md R72 to R76). -/

namespace Sys2Proof

/-! ### A word from its fields -/

section FromFields

variable {w : Word} {d1 d4 : BitVec 4} {kk : Byte}

theorem encodeAddr_fieldAddr (h1 : (nib1 w).toNat = d1.toNat) : encodeAddr d1 (fieldAddr w) = w := by
  apply BitVec.eq_of_toNat_eq
  rw [toNat_nib1] at h1
  rw [toNat_encodeAddr, toNat_fieldAddr]
  omega

theorem encodeXKk_fieldX (h1 : (nib1 w).toNat = d1.toNat) (hkk : (fieldKk w).toNat = kk.toNat) :
    encodeXKk d1 (fieldX w) kk = w := by
  apply BitVec.eq_of_toNat_eq
  rw [toNat_nib1] at h1
  rw [toNat_fieldKk] at hkk
  rw [toNat_encodeXKk, val_fieldX]
  omega

theorem encodeXY_fieldX_fieldY (h1 : (nib1 w).toNat = d1.toNat) (h4 : (nib4 w).toNat = d4.toNat) :
    encodeXY d1 (fieldX w) (fieldY w) d4 = w := by
  apply BitVec.eq_of_toNat_eq
  rw [toNat_nib1] at h1
  rw [toNat_nib4] at h4
  rw [toNat_encodeXY, val_fieldX, val_fieldY]
  omega

end FromFields

/-! ### Decoding and encoding undo each other -/

/-- Settles O5: the decoder reads from a word of each format the fields that the encoder put there. -/
theorem decodeOfEncodeIsTheInstruction : Obligations.DecodeOfEncodeIsTheInstruction := by
  intro i
  cases i
  case cls | ret => decide
  case jp | call | ldI | jpV0 | seImm | sneImm | ldImm | addImm | rnd | drw => simp [encode, decodeWord]
  case seReg | ldReg | or | and | xor | addReg | sub | shr | subn | shl | sneReg =>
    simp [encode, decodeWord, decodeTwoReg]
  all_goals simp [encode, decodeWord, decodeSubOp]

section Decoded

variable {w : Word} {i : Instr}

theorem encode_of_decodeFixed (h : decodeFixed w = .ok i) : encode i = w := by
  unfold decodeFixed at h
  split at h
  · next hw => cases h; exact hw.symm
  · split at h <;> cases h
    next hw => exact hw.symm

theorem encode_of_decodeTwoReg (h : decodeTwoReg w = .ok i) : encode i = w := by
  unfold decodeTwoReg at h
  split at h <;> cases h
  all_goals next h1 h4 => exact encodeXY_fieldX_fieldY h1 h4

theorem encode_of_decodeSubOp (h : decodeSubOp w = .ok i) : encode i = w := by
  unfold decodeSubOp at h
  split at h <;> cases h
  all_goals next h1 hkk => exact encodeXKk_fieldX h1 hkk

end Decoded

/-- Settles O6: each branch of the decoder names the fields of one format, and these make up the word. -/
theorem encodeOfDecodeIsTheWord : Obligations.EncodeOfDecodeIsTheWord := by
  intro w i h
  unfold decodeWord at h
  split at h
  case h_1 => exact encode_of_decodeFixed h
  case h_2 h1 | h_3 h1 | h_8 h1 | h_9 h1 => cases h; exact encodeAddr_fieldAddr h1
  case h_4 h1 | h_5 h1 | h_6 h1 | h_7 h1 | h_10 h1 => cases h; exact encodeXKk_fieldX h1 rfl
  case h_11 h1 => cases h; exact encodeXY_fieldX_fieldY h1 rfl
  case h_12 | h_13 | h_14 => exact encode_of_decodeTwoReg h
  case h_15 => exact encode_of_decodeSubOp h

/-- Settles O4: the words are numbers, so the decoder computes each answer. -/
theorem patternWordsDecode : Obligations.PatternWordsDecode := by
  unfold Obligations.PatternWordsDecode
  decide

/-! ### The words that do not decode -/

section Illegal

variable {w : Word}

theorem decodeFixed_eq_error :
    decodeFixed w = .error (.illegal w) ↔ w.toNat ≠ 0x00E0 ∧ w.toNat ≠ 0x00EE := by
  unfold decodeFixed
  split
  · next hcls => simp [hcls]
  · next hcls =>
    split
    · next hret => simp [hret]
    · next hret =>
      refine iff_of_true rfl ⟨fun h => hcls ?_, fun h => hret ?_⟩
      all_goals exact BitVec.eq_of_toNat_eq h

/-- The pairs of group and sub-operation nibble that format XYS has (30_encoding.md R75). -/
theorem decodeTwoReg_eq_error :
    decodeTwoReg w = .error (.illegal w) ↔ ((nib1 w).toNat, (nib4 w).toNat) ∉
      [(5, 0), (8, 0), (8, 1), (8, 2), (8, 3), (8, 4), (8, 5), (8, 6), (8, 7), (8, 0xE), (9, 0)] := by
  unfold decodeTwoReg
  split <;> simp_all

/-- The pairs of group and sub-operation byte that format XOP has (30_encoding.md R75). -/
theorem decodeSubOp_eq_error :
    decodeSubOp w = .error (.illegal w) ↔ ((nib1 w).toNat, (fieldKk w).toNat) ∉
      [(0xE, 0x9E), (0xE, 0xA1), (0xF, 0x07), (0xF, 0x0A), (0xF, 0x15), (0xF, 0x18), (0xF, 0x1E), (0xF, 0x29),
        (0xF, 0x33), (0xF, 0x55), (0xF, 0x65)] := by
  unfold decodeSubOp
  split <;> simp_all

end Illegal

/-- Settles O9: in the groups whose every word decodes both sides are false, and in each other group the sub-decoder
answers which words are refused. -/
theorem illegalWordsAreTheListedOnes : Obligations.IllegalWordsAreTheListedOnes := by
  intro w
  rw [← toNat_nib1, ← toNat_nib4, ← toNat_fieldKk]
  unfold decodeWord
  split
  case h_1 h1 => simp [decodeFixed_eq_error, h1]
  case h_12 h1 | h_14 h1 => simp [decodeTwoReg_eq_error, h1]
  case h_13 h1 =>
    simp only [decodeTwoReg_eq_error, h1, List.mem_cons, Prod.mk.injEq, Nat.reduceEqDiff, false_and, true_and,
      List.not_mem_nil, or_self, or_false, false_or, not_or, OfNat.ofNat_ne_zero, ne_eq]
    omega
  case h_15 =>
    have hlt := (nib1 w).isLt
    have hgroup : (nib1 w).toNat = 0xE ∨ (nib1 w).toNat = 0xF := by
      simp only [imp_false] at *
      omega
    rw [decodeSubOp_eq_error]
    rcases hgroup with h1 | h1 <;> simp [h1]
  all_goals next h1 => simp [h1]

/-! ### The masks of the opcode table -/

section Masks

variable {w p : Word} {d1 d4 : BitVec 4} {kk : Byte}

/-- The mask of formats ADR, XKK and XYN keeps the group. -/
theorem and_mask_group (h1 : nib1 w = d1) : w &&& 0xF000 = encodeAddr d1 0 := by
  have hmask : (0xF000 : Word) = encodeAddr (BitVec.allOnes 4) 0 := by decide
  rw [← encodeAddr_fieldAddr (w := w) rfl, h1, hmask, encodeAddr, encodeAddr, BitVec.and_append, BitVec.and_allOnes]
  simp [encodeAddr]

/-- The mask of format XYS keeps the group and the sub-operation nibble. -/
theorem and_mask_twoReg (h1 : nib1 w = d1) (h4 : nib4 w = d4) : w &&& 0xF00F = encodeXY d1 0 0 d4 := by
  have hmask : (0xF00F : Word) = encodeXY (BitVec.allOnes 4) 0 0 (BitVec.allOnes 4) := by decide
  rw [← encodeXY_fieldX_fieldY (w := w) rfl rfl, h1, h4, hmask, encodeXY, encodeXY, wordOfNibbles, wordOfNibbles,
    BitVec.and_append, BitVec.and_append, BitVec.and_append, BitVec.and_allOnes, BitVec.and_allOnes]
  simp [encodeXY, wordOfNibbles]

/-- The mask of format XOP keeps the group and the sub-operation byte. -/
theorem and_mask_subOp (h1 : nib1 w = d1) (hkk : fieldKk w = kk) : w &&& 0xF0FF = encodeXKk d1 0 kk := by
  have hmask : (0xF0FF : Word) = encodeXKk (BitVec.allOnes 4) 0 (BitVec.allOnes 8) := by decide
  rw [← encodeXKk_fieldX (w := w) rfl rfl, h1, hkk, hmask, encodeXKk, encodeXKk, BitVec.and_append, BitVec.and_append,
    BitVec.and_allOnes, BitVec.and_allOnes]
  simp [encodeXKk]

theorem nib1_of_and_mask (h : w &&& 0xF000 = p) : nib1 w = nib1 p := by
  rw [← h, and_mask_group rfl, nib1_encodeAddr]

theorem nib1_nib4_of_and_mask (h : w &&& 0xF00F = p) : nib1 w = nib1 p ∧ nib4 w = nib4 p := by
  rw [← h, and_mask_twoReg rfl rfl, nib1_encodeXY, nib4_encodeXY]
  exact ⟨rfl, rfl⟩

theorem nib1_fieldKk_of_and_mask (h : w &&& 0xF0FF = p) : nib1 w = nib1 p ∧ fieldKk w = fieldKk p := by
  rw [← h, and_mask_subOp rfl rfl, nib1_encodeXKk, fieldKk_encodeXKk]
  exact ⟨rfl, rfl⟩

end Masks

/-! ### The words of a row -/

section Rows

variable {w : Word} {r : OpcodeRow}

/-- The two fixed words have a row each; in the other rows of these formats the group decides. -/
theorem decodes_of_rowPlain (hr : r ∈ opcodeRowsPlain) (h : w &&& r.mask = r.pattern) :
    ∃ i, decodeWord w = .ok i ∧ i.mnemonic = r.mnemonic := by
  simp only [opcodeRowsPlain, List.mem_cons, List.not_mem_nil, or_false] at hr
  rcases hr with rfl | rfl | hr
  · obtain rfl := BitVec.and_allOnes.symm.trans h
    exact ⟨.cls, by decide, rfl⟩
  · obtain rfl := BitVec.and_allOnes.symm.trans h
    exact ⟨.ret, by decide, rfl⟩
  · rcases hr with rfl | rfl | rfl | rfl | rfl | rfl | rfl | rfl | rfl | rfl
    all_goals
      simp only [decodeWord, nib1_of_and_mask h]
      exact ⟨_, rfl, rfl⟩

theorem decodes_of_rowTwoReg (hr : r ∈ opcodeRowsTwoReg) (h : w &&& r.mask = r.pattern) :
    ∃ i, decodeWord w = .ok i ∧ i.mnemonic = r.mnemonic := by
  simp only [opcodeRowsTwoReg, List.mem_cons, List.not_mem_nil, or_false] at hr
  rcases hr with rfl | rfl | rfl | rfl | rfl | rfl | rfl | rfl | rfl | rfl | rfl
  all_goals
    obtain ⟨h1, h4⟩ := nib1_nib4_of_and_mask h
    simp only [decodeWord, decodeTwoReg, h1, h4]
    exact ⟨_, rfl, rfl⟩

theorem decodes_of_rowSubOp (hr : r ∈ opcodeRowsSubOp) (h : w &&& r.mask = r.pattern) :
    ∃ i, decodeWord w = .ok i ∧ i.mnemonic = r.mnemonic := by
  simp only [opcodeRowsSubOp, List.mem_cons, List.not_mem_nil, or_false] at hr
  rcases hr with rfl | rfl | rfl | rfl | rfl | rfl | rfl | rfl | rfl | rfl | rfl
  all_goals
    obtain ⟨h1, hkk⟩ := nib1_fieldKk_of_and_mask h
    simp only [decodeWord, decodeSubOp, h1, hkk]
    exact ⟨_, rfl, rfl⟩

theorem decodes_of_row (hr : r ∈ opcodeTable) (h : w &&& r.mask = r.pattern) :
    ∃ i, decodeWord w = .ok i ∧ i.mnemonic = r.mnemonic := by
  simp only [opcodeTable, List.mem_append] at hr
  obtain (hr | hr) | hr := hr
  · exact decodes_of_rowPlain hr h
  · exact decodes_of_rowTwoReg hr h
  · exact decodes_of_rowSubOp hr h

theorem exists_row_of_mask {m p : Word} (hrow : ∃ r ∈ opcodeTable, r.mask = m ∧ r.pattern = p) (h : w &&& m = p) :
    ∃ r ∈ opcodeTable, w &&& r.mask = r.pattern := by
  obtain ⟨r, hr, rfl, rfl⟩ := hrow
  exact ⟨r, hr, h⟩

theorem exists_row_of_encode (i : Instr) : ∃ r ∈ opcodeTable, encode i &&& r.mask = r.pattern := by
  cases i
  case cls | ret => decide
  case jp | call | ldI | jpV0 => exact exists_row_of_mask (by decide) (and_mask_group (nib1_encodeAddr ..))
  case seImm | sneImm | ldImm | addImm | rnd =>
    exact exists_row_of_mask (by decide) (and_mask_group (nib1_encodeXKk ..))
  case drw => exact exists_row_of_mask (by decide) (and_mask_group (nib1_encodeXY ..))
  case seReg | ldReg | or | and | xor | addReg | sub | shr | subn | shl | sneReg =>
    exact exists_row_of_mask (by decide) (and_mask_twoReg (nib1_encodeXY ..) (nib4_encodeXY ..))
  all_goals exact exists_row_of_mask (by decide) (and_mask_subOp (nib1_encodeXKk ..) (fieldKk_encodeXKk ..))

end Rows

/-- Settles O7: a word of a row decodes to that row's instruction, and a word that decodes is of some row, which is then
its instruction's. -/
theorem decoderAgreesWithTheOpcodeTable : Obligations.DecoderAgreesWithTheOpcodeTable := by
  intro w m
  constructor
  · rintro ⟨i, hi, rfl⟩
    obtain ⟨r, hr, hrow⟩ := exists_row_of_encode i
    rw [encodeOfDecodeIsTheWord w i hi] at hrow
    obtain ⟨j, hj, hmnemonic⟩ := decodes_of_row hr hrow
    cases hi.symm.trans hj
    exact ⟨r, hr, hmnemonic.symm, hrow⟩
  · rintro ⟨r, hr, rfl, hrow⟩
    exact decodes_of_row hr hrow

end Sys2Proof
end

section
/-! PROOFS. The step and its faults (30_encoding.md R77, R78; 60_exceptions.md R210 to R219, R232), and what only some
instructions write. -/

namespace Sys2Proof.Machine

/-! ### What a step runs -/

section StepBranches

variable {s : State}

/-- A step of a core that is not halted is the next instruction's meaning. -/
theorem step_eq_exec {i : Instr} (hf : s.fault = none) (hi : nextInstr s = some i) : step s = exec i s := by
  obtain ⟨w, hfetch, hdecode⟩ := nextInstr_eq_some.1 hi
  simp only [step, hf, hfetch, not_haltSentinel_of_decode hdecode, hdecode, Bool.false_eq_true, if_false]

theorem step_of_fetch_error {a : Nat} (hf : s.fault = none) (hfetch : fetch s = .error a) :
    step s = takeFault s .outOfBounds none (.addr a) := by
  simp only [step, hf, hfetch]

theorem step_of_sentinel {w : Word} (hf : s.fault = none) (hfetch : fetch s = .ok w)
    (hhalt : isHaltSentinel s.params w = true) : step s = takeFault s .halt (some w) .none := by
  simp only [step, hf, hfetch, hhalt, if_true]

theorem step_of_illegal {w : Word} (hf : s.fault = none) (hfetch : fetch s = .ok w)
    (hno : isHaltSentinel s.params w = false) (hillegal : decodeWord w = .error (.illegal w)) :
    step s = takeFault s .illegalInstruction (some w) .none := by
  simp only [step, hf, hfetch, hno, hillegal, Bool.false_eq_true, if_false]

end StepBranches

/-- Settles O10: the fetch answers the word of the two bytes at PC, which decodes. -/
theorem stepRunsTheDecodedInstruction : Obligations.StepRunsTheDecodedInstruction :=
  fun _ _ hf hpc hdecode => step_eq_exec hf (nextInstr_eq_some.2 ⟨_, fetch_of_lt (Nat.lt_of_succ_lt_succ hpc), hdecode⟩)

/-- Settles O11: the failed fetch names the larger of PC and 4096. -/
theorem fetchOutsideMemoryFaults : Obligations.FetchOutsideMemoryFaults := by
  refine fun s hf => ⟨fun hpc => ?_, fun hpc => ?_⟩
  · rw [step_of_fetch_error hf (fetch_of_ge (by omega)), Nat.max_eq_left hpc]
    rfl
  · rw [step_of_fetch_error hf (fetch_of_ge (by omega)), hpc]
    rfl

/-- Settles O12: the sentinel is looked at before the decoder, and is the only word it concerns. -/
theorem undecodedWordFaults : Obligations.UndecodedWordFaults := by
  rintro s w hf hpc rfl
  have hfetch := fetch_of_lt (Nat.lt_of_succ_lt_succ hpc)
  refine ⟨fun hones hsentinel => ?_, fun hillegal hno => step_of_illegal hf hfetch ?_ hillegal⟩
  · rw [hones] at hfetch
    exact step_of_sentinel hf hfetch (isHaltSentinel_eq_true.2 ⟨hsentinel, rfl⟩)
  · rw [← Bool.not_eq_true, isHaltSentinel_eq_true, not_and_or, Bool.not_eq_true]
    exact hno.symm

/-- Settles O13: every transaction looks at the fault field first. -/
theorem haltedCoreTakesNoTransaction : Obligations.HaltedCoreTakesNoTransaction := by
  intro s r x hf
  cases x
  case step => exact step_halted hf
  case reset => simp only [transact, resetAgain, hf]
  case load => simp only [transact, load, hf]
  case tick => simp only [transact, tick, hf]
  case setKey => simp only [transact, setKey, hf]

/-! ### A step takes a fault or completes -/

/-- Either the fault field alone changed, to a record that names the instruction at PC, or the core has started and
neither a fault, a parameter nor a key changed. -/
theorem step_faults_or_completes {s t : State} (h : step s = .next t) :
    (∃ r, t = s.enterFault r ∧ r.ipc = some s.pc) ∨
      (t.fault = none ∧ t.started = true ∧ t.params = s.params ∧ t.keys = s.keys) := by
  obtain ⟨hf, ⟨-, rfl⟩ | ⟨-, -, rfl⟩ | ⟨_, -, -, rfl⟩ | ⟨-, i, -, hexec⟩⟩ := step_inversion h
  · exact .inl ⟨_, rfl, rfl⟩
  · exact .inl ⟨_, rfl, rfl⟩
  · exact .inl ⟨_, rfl, rfl⟩
  · obtain ⟨r, rfl, hipc, -, -⟩ | ⟨hfault, hrest⟩ := exec_cases hexec
    · exact .inl ⟨r, rfl, hipc⟩
    · exact .inr ⟨hfault.trans hf, hrest⟩

/-- Settles O14: a step that completes leaves the fault field empty. -/
theorem faultsArePrecise : Obligations.FaultsArePrecise := by
  intro s t r h hr
  refine ⟨fault_none_of_step h, ?_⟩
  obtain ⟨r', rfl, hipc⟩ | ⟨hnone, -⟩ := step_faults_or_completes h
  · cases hr
    exact ⟨rfl, hipc⟩
  · cases hnone.symm.trans hr

/-- Settles O19: a step that takes a fault leaves the fault field set. -/
theorem completedStepStartsTheCore : Obligations.CompletedStepStartsTheCore := by
  intro s t h hnone
  obtain ⟨r, rfl, -⟩ | ⟨-, hstarted, -⟩ := step_faults_or_completes h
  · cases hnone
  · exact hstarted

theorem fetch_encode_of_nextInstr {s : State} {i : Instr} (hi : nextInstr s = some i) : fetch s = .ok (encode i) := by
  obtain ⟨w, hfetch, hdecode⟩ := nextInstr_eq_some.1 hi
  rw [hfetch, encodeOfDecodeIsTheWord w i hdecode]

/-- Settles O15: `step_inversion` gives the condition of a fault of the step itself, and `exec_cases` that of a fault
within the instruction. -/
theorem faultsHaveTheTabledCauses : Obligations.FaultsHaveTheTabledCauses := by
  intro s t r h hr
  obtain ⟨hf, ⟨hpc, rfl⟩ | ⟨hfetch, hsentinel, rfl⟩ | ⟨w, hfetch, hnone, rfl⟩ | ⟨-, i, hi, hexec⟩⟩ := step_inversion h
  · cases hr
    exact ⟨_, rfl, Nat.le_max_right .., .inl ⟨hpc, rfl, rfl⟩⟩
  · cases hr
    exact ⟨hfetch, hsentinel⟩
  · cases hr
    exact ⟨w, hfetch, rfl, .inl hnone⟩
  · obtain ⟨r', rfl, -, hword, hcause⟩ | ⟨hsame, -⟩ := exec_cases hexec
    case inr => cases (hsame.trans hf).symm.trans hr
    cases hr
    obtain ⟨kind, ipc, word, info⟩ := r
    cases kind
    case illegalInstruction =>
      obtain ⟨-, hzero, x, y, rfl⟩ := hcause
      exact ⟨_, fetch_encode_of_nextInstr hi, hword, .inr ⟨hzero, x, y, hi⟩⟩
    case outOfBounds =>
      obtain ⟨hinfo, haccess⟩ := hcause
      exact ⟨_, hinfo, Nat.le_max_right .., .inr ⟨i, hi, hword, rfl, haccess⟩⟩
    case stackOverflow =>
      obtain ⟨-, hsp, addr, rfl⟩ := hcause
      exact ⟨hsp, addr, hi⟩
    case stackUnderflow =>
      obtain ⟨-, hsp, rfl⟩ := hcause
      exact ⟨hsp, hi⟩
    case keyIndexOutOfRange =>
      obtain ⟨x, rfl | rfl, hcond⟩ := hcause
      · exact ⟨x, .inl hi, hcond⟩
      · exact ⟨x, .inr hi, hcond⟩
    case halt => exact hcause.elim
    case malformedImage => exact hcause.elim

/-! ### The stack, the timers and the keys -/

/-- Settles O23: the instruction of a step that changes the stack writes it; a RET or CALL that takes a fault does not
change it. -/
theorem onlyCallAndRetTouchTheStack : Obligations.OnlyCallAndRetTouchTheStack := by
  intro s t h hstack
  have hchanged : ¬ Unchanged .stack s t := fun ⟨hentries, hsp⟩ => hstack.elim (absurd hsp) (absurd hentries)
  obtain ⟨i, hi, hw⟩ := mem_writes_of_step h (by decide) hchanged
  have hexec := exec_of_step h hi
  obtain rfl | ⟨addr, rfl⟩ := stack_mem_writes.1 hw
  · obtain ⟨-, hret⟩ | ⟨k, hk, hret⟩ := exec_ret_cases s <;> cases hret.symm.trans hexec
    · exact absurd ⟨rfl, rfl⟩ hchanged
    · exact .inr ⟨hi, congrArg Fin.val hk.symm, rfl⟩
  · obtain ⟨-, hcall⟩ | ⟨k, hk, hcall⟩ := exec_call_cases addr s <;> cases hcall.symm.trans hexec
    · exact absurd ⟨rfl, rfl⟩ hchanged
    · exact .inl ⟨⟨addr, hi⟩, congrArg (·.val + 1) hk.symm⟩

theorem delayTimer_mem_writes {i : Instr} : .delayTimer ∈ i.writes ↔ ∃ x, i = .ldDtVx x := by
  cases i <;> simp [Instr.writes]

theorem soundTimer_mem_writes {i : Instr} : .soundTimer ∈ i.writes ↔ ∃ x, i = .ldStVx x := by
  cases i <;> simp [Instr.writes]

/-- Settles O24: the instruction of a step that changes a timer writes that timer, and no fault or completed step
changes the keys or the parameters. -/
theorem onlyTimerLoadsWriteTimersAndNoneKeys : Obligations.OnlyTimerLoadsWriteTimersAndNoneKeys := by
  intro s t h
  refine ⟨fun hdt => ?_, fun hst => ?_, ?_⟩
  · obtain ⟨i, hi, hw⟩ := mem_writes_of_step (p := .delayTimer) h (by decide) hdt
    obtain ⟨x, rfl⟩ := delayTimer_mem_writes.1 hw
    cases exec_of_step h hi
    exact ⟨x, hi, rfl⟩
  · obtain ⟨i, hi, hw⟩ := mem_writes_of_step (p := .soundTimer) h (by decide) hst
    obtain ⟨x, rfl⟩ := soundTimer_mem_writes.1 hw
    cases exec_of_step h hi
    exact ⟨x, hi, rfl⟩
  · obtain ⟨r, rfl, -⟩ | ⟨-, -, hparams, hkeys⟩ := step_faults_or_completes h
    · exact ⟨rfl, rfl⟩
    · exact ⟨hkeys, hparams⟩

/-- Settles O53: the two bytes at PC are bytes k and k + 1 of those stored at I, which are Vk and the next register. -/
theorem storeReachesTheNextFetch : Obligations.StoreReachesTheNextFetch := by
  intro x k j s t hj hjx hlt hstore hpc
  cases (exec_ldMemVx.trans (accessAtI_of_lt hlt)).symm.trans hstore
  have hkj : k ≤ j := Fin.le_def.2 (by omega)
  have hkx : k ≤ x := hkj.trans hjx
  have hnext : memAtI s k + 1 = memAtI s j := by rw [memAtI, memAtI, hj, Nat.add_assoc]
  have hlast : memAtI s j ≤ memAtI s x := memAtI_mono hjx
  have hfetch : (s.storeAtI (regsUpTo x s)).pc.toNat < 4095 := by omega
  rw [fetch_of_lt hfetch, hpc, hnext, read_storeAtI_regsUpTo hkx, read_storeAtI_regsUpTo hjx]

end Sys2Proof.Machine
end

section
/-! PROOFS. The invariant of memory and of the fault record, along steps and runs (20_memory.md R53, 60_exceptions.md
R210, R216, R231). -/

namespace Sys2Proof.Machine

/-! ### Memory stays canonical -/

@[simp] theorem mem_skipIf {s : State} {c : Bool} : (s.skipIf c).mem = s.mem := by
  rw [State.skipIf_eq, State.setPc_mem]

@[simp] theorem mem_writeWithFlag {s : State} {x : Reg} {b : Byte} {c : Bool} :
    (s.writeWithFlag x b c).mem = s.mem := rfl

/-- An instruction that writes no memory leaves it as the same list, not only as the same bytes. -/
theorem mem_eq_of_exec {i : Instr} {s t : State} (hw : .memory ∉ i.writes) (h : exec i s = .next t) :
    t.mem = s.mem := by
  cases i
  case ldB | ldMemVx => simp [Instr.writes] at hw
  case ret => obtain ⟨-, hret⟩ | ⟨k, -, hret⟩ := exec_ret_cases s <;> cases hret.symm.trans h <;> rfl
  case call addr => obtain ⟨-, hcall⟩ | ⟨k, -, hcall⟩ := exec_call_cases addr s <;> cases hcall.symm.trans h <;> rfl
  case drw =>
    simp only [exec, execDrw] at h
    split at h
    · cases h; rfl
    · split at h <;> cases h <;> rfl
  case ldVxMem | skp | sknp | ldVxK =>
    simp only [exec, execLdVxMem, execSkp, execSknp, execLdVxK] at h
    split at h <;> cases h <;> simp
  all_goals cases h; simp

theorem mem_wf_of_accessAtI {i : Instr} {last : Nat} {bs : List Byte} {s t : State} (hlen : bs.length = last + 1)
    (hwf : s.mem.wf) (h : accessAtI i last s (s.storeAtI bs) = .next t) : t.mem.wf := by
  by_cases hlt : memAtI s last < 4096
  · cases (accessAtI_of_lt hlt).symm.trans h
    refine Memory.wf_writeBytes hwf _ _ ?_
    rw [hlen]
    exact hlt
  · cases (accessAtI_of_le (Nat.not_lt.1 hlt)).symm.trans h
    exact hwf

theorem mem_wf_of_exec {i : Instr} {s t : State} (hwf : s.mem.wf) (h : exec i s = .next t) : t.mem.wf := by
  by_cases hw : .memory ∈ i.writes
  · obtain ⟨x, rfl⟩ | ⟨x, rfl⟩ := memory_mem_writes.1 hw
    · exact mem_wf_of_accessAtI (length_bcdDigits _) hwf (exec_ldB.symm.trans h)
    · exact mem_wf_of_accessAtI (length_regsUpTo x s) hwf (exec_ldMemVx.symm.trans h)
  · rwa [mem_eq_of_exec hw h]

theorem mem_wf_of_step {s t : State} (hwf : s.mem.wf) (h : step s = .next t) : t.mem.wf := by
  obtain ⟨-, ⟨-, rfl⟩ | ⟨-, -, rfl⟩ | ⟨_, -, -, rfl⟩ | ⟨-, i, -, hexec⟩⟩ := step_inversion h
  · exact hwf
  · exact hwf
  · exact hwf
  · exact mem_wf_of_exec hwf hexec

/-! ### The record of a halted core fits its state -/

theorem recordFits_of_exec {i : Instr} {s t : State} {r : FaultRecord} (hf : s.fault = none)
    (h : exec i s = .next t) (hr : t.fault = some r) : RecordFits r t := by
  obtain ⟨r', rfl, hipc, hword, hcause⟩ | ⟨hsame, -⟩ := exec_cases h
  case inr => cases (hsame.trans hf).symm.trans hr
  cases hr
  obtain ⟨kind, ipc, word, info⟩ := r
  have hsome : word.isSome := Option.isSome_of_eq_some hword
  cases kind
  case illegalInstruction =>
    obtain ⟨hinfo, -⟩ := hcause
    exact ⟨hipc, hsome, hinfo⟩
  case outOfBounds =>
    obtain ⟨hinfo, -⟩ := hcause
    exact ⟨hipc, _, hinfo, Nat.le_max_right ..⟩
  case stackOverflow | stackUnderflow =>
    obtain ⟨hinfo, hsp, -⟩ := hcause
    exact ⟨hipc, hsome, hinfo, hsp⟩
  case keyIndexOutOfRange =>
    obtain ⟨x, -, hindex, hinfo⟩ := hcause
    exact ⟨hipc, hsome, _, hinfo, hindex⟩
  case halt => exact hcause.elim
  case malformedImage => exact hcause.elim

theorem recordFits_of_step {s t : State} {r : FaultRecord} (h : step s = .next t) (hr : t.fault = some r) :
    RecordFits r t := by
  obtain ⟨hf, ⟨-, rfl⟩ | ⟨-, hsentinel, rfl⟩ | ⟨_, -, -, rfl⟩ | ⟨-, i, -, hexec⟩⟩ := step_inversion h
  · cases hr
    exact ⟨rfl, _, rfl, Nat.le_max_right ..⟩
  · cases hr
    exact ⟨rfl, rfl, rfl, hsentinel⟩
  · cases hr
    exact ⟨rfl, rfl, rfl⟩
  · exact recordFits_of_exec hf hexec hr

/-- Settles O16: memory by the frame of each instruction, the record by what each fault is raised on. -/
theorem stepKeepsTheInvariant : Obligations.StepKeepsTheInvariant :=
  fun _ _ ⟨hwf, _⟩ h => ⟨mem_wf_of_step hwf h, fun _ hr => recordFits_of_step h hr⟩

/-! ### Every transaction, every run -/

theorem inv_of_fault_eq_none {s : State} (hwf : s.mem.wf) (hf : s.fault = none) : Inv s :=
  ⟨hwf, fun r hr => by simp [hf] at hr⟩

theorem inv_of_load {image : List Byte} {s t : State} (hs : Inv s) (h : load image s = .next t) : Inv t := by
  obtain ⟨hwf, -⟩ := hs
  simp only [load] at h
  split at h
  · cases h
  · next hf =>
    split at h
    · cases h
    · next hstarted =>
      split at h <;> cases h
      · next hfits =>
        exact inv_of_fault_eq_none (Memory.wf_writeBytes hwf _ _ (of_decide_eq_true hfits)) hf
      · next hfits =>
        refine ⟨hwf, fun r hr => ?_⟩
        cases hr
        have hlen : 3584 < image.length := by simpa [imageFits_eq_true] using hfits
        exact ⟨rfl, rfl, Bool.eq_false_of_not_eq_true hstarted, _, rfl, hlen⟩

theorem inv_of_transact {x : Transaction} {s t : State} (hs : Inv s) (h : transact x s = .next t) : Inv t := by
  cases x
  case load => exact inv_of_load hs h
  case step => exact stepKeepsTheInvariant s t hs h
  case reset => simp only [transact, resetAgain] at h; split at h <;> cases h
  case tick | setKey =>
    simp only [transact, tick, setKey] at h
    split at h <;> cases h
    next hf => exact inv_of_fault_eq_none hs.1 hf

/-- Settles O17: by induction on the list of transactions. -/
theorem everyRunKeepsTheInvariant : Obligations.EveryRunKeepsTheInvariant := by
  intro xs
  induction xs with
  | nil => rintro s t hs ⟨⟩; exact hs
  | cons x xs ih =>
    intro s t hs h
    simp only [runAll] at h
    split at h
    · next u hu => exact ih u t (inv_of_transact hs hu) h
    · cases h
    · cases h

end Sys2Proof.Machine
end

section
/-! PROOFS. Stack entries not in use are observed by no instruction (10_state.md R27). -/

namespace Sys2Proof.Machine

/-- The state with other stack entries. -/
def State.withStack (entries : Vector Word 16) (s : State) : State := { s with stack := entries }

/-- The result with other stack entries in the next state, where there is one. -/
def resultWithStack (entries : Vector Word 16) : StepResult → StepResult
  | .next t => .next (t.withStack entries)
  | .fault r => .fault r
  | .refused r => .refused r

/-- The entries in use are the same. -/
def AgreeInUse (s : State) (entries : Vector Word 16) : Prop := ∀ j : Fin 16, j.val < s.sp.val → entries[j] = s.stack[j]

theorem sameButUnusedStack_iff {s s' : State} :
    SameButUnusedStack s s' ↔ ∃ entries, s' = s.withStack entries ∧ AgreeInUse s entries := by
  constructor
  · rintro ⟨hs', hagree⟩
    exact ⟨s'.stack, hs', hagree⟩
  · rintro ⟨entries, rfl, hagree⟩
    exact ⟨rfl, hagree⟩

/-- Both results stop alike, or go on to states that differ at most in stack entries not in use. -/
def ResultsAlike (r r' : StepResult) : Prop :=
  (∀ t, r = .next t → ∃ t', r' = .next t' ∧ SameButUnusedStack t t') ∧ ∀ f, r = .fault f → r' = .fault f

theorem resultsAlike_next {t t' : State} (h : SameButUnusedStack t t') : ResultsAlike (.next t) (.next t') := by
  refine ⟨?_, fun f hf => nomatch hf⟩
  rintro _ ⟨⟩
  exact ⟨t', rfl, h⟩

theorem resultsAlike_fault (f : Fault) : ResultsAlike (.fault f) (.fault f) := ⟨fun _ h => (nomatch h), fun _ h => h⟩

/-! ### The operands do not see the stack -/

section WithStack

variable {entries : Vector Word 16} {s : State}

@[simp] theorem reg_withStack {x : Reg} : (s.withStack entries).reg x = s.reg x := rfl
@[simp] theorem memAtI_withStack {k : Nat} : memAtI (s.withStack entries) k = memAtI s k := rfl
@[simp] theorem params_withStack : (s.withStack entries).params = s.params := rfl
@[simp] theorem lowestPressed_withStack : lowestPressed (s.withStack entries) = lowestPressed s := rfl

/-- An instruction that does not write the stack does not read it either. -/
theorem exec_withStack {i : Instr} (hw : .stack ∉ i.writes) :
    exec i (s.withStack entries) = resultWithStack entries (exec i s) := by
  cases i
  case ret | call => simp [Instr.writes] at hw
  case drw x y n =>
    simp only [exec, execDrw, params_withStack, memAtI_withStack]
    by_cases hzero : n = 0 ∧ s.params.drawZeroRows = .fault
    · simp only [hzero, and_self, if_true]
      rfl
    · simp only [hzero, if_false]
      split <;> rfl
  case ldB | ldMemVx | ldVxMem =>
    simp only [exec, execLdB, execLdMemVx, execLdVxMem, memAtI_withStack]
    split <;> rfl
  case skp | sknp =>
    simp only [exec, execSkp, execSknp, reg_withStack]
    split
    · rfl
    · simp only [State.skipIf_eq]; rfl
  case ldVxK =>
    simp only [exec, execLdVxK, lowestPressed_withStack]
    split <;> rfl
  case seImm | sneImm | seReg | sneReg =>
    simp only [exec, execSeImm, execSneImm, execSeReg, execSneReg, State.skipIf_eq]
    rfl
  all_goals rfl

/-! ### Two such states give results alike -/

theorem resultsAlike_takeFault (hagree : AgreeInUse s entries) (kind : FaultKind) (word : Option Word)
    (info : FaultInfo) :
    ResultsAlike (takeFault s kind word info) (takeFault (s.withStack entries) kind word info) :=
  resultsAlike_next ⟨rfl, hagree⟩

theorem resultsAlike_exec_of_not_stack {i : Instr} (hagree : AgreeInUse s entries) (hw : .stack ∉ i.writes) :
    ResultsAlike (exec i s) (exec i (s.withStack entries)) := by
  rw [exec_withStack hw]
  cases h : exec i s with
  | next t =>
    obtain ⟨hstack, hsp⟩ := exec_keepsAllBut h .stack (by simp [hw])
    refine resultsAlike_next (sameButUnusedStack_iff.2 ⟨entries, rfl, ?_⟩)
    rwa [AgreeInUse, hstack, hsp]
  | fault f => exact resultsAlike_fault f
  | refused r => exact ⟨fun _ h => (nomatch h), fun _ h => (nomatch h)⟩

/-- RET reads the entry below SP, which is in use. -/
theorem resultsAlike_exec_ret (hagree : AgreeInUse s entries) :
    ResultsAlike (exec .ret s) (exec .ret (s.withStack entries)) := by
  obtain ⟨hsp, hret⟩ | ⟨k, hk, hret⟩ := exec_ret_cases s
  · rw [hret, exec_ret_empty (s := s.withStack entries) hsp]
    exact resultsAlike_takeFault hagree ..
  · rw [hret, exec_ret (s := s.withStack entries) hk]
    have hentry : entries[k] = s.stack[k] := hagree k (by simp [hk])
    refine resultsAlike_next (sameButUnusedStack_iff.2 ⟨entries, ?_, fun j hj => hagree j ?_⟩)
    · rw [State.afterRet, State.afterRet, ← hentry]
      rfl
    · exact hj.trans (by simp [State.afterRet, hk])

/-- CALL takes into use the entry that it writes. -/
theorem resultsAlike_exec_call {addr : Addr} (hagree : AgreeInUse s entries) :
    ResultsAlike (exec (.call addr) s) (exec (.call addr) (s.withStack entries)) := by
  obtain ⟨hsp, hcall⟩ | ⟨k, hk, hcall⟩ := exec_call_cases addr s
  · rw [hcall, exec_call_full (s := s.withStack entries) hsp]
    exact resultsAlike_takeFault hagree ..
  · rw [hcall, exec_call (s := s.withStack entries) hk]
    refine resultsAlike_next (sameButUnusedStack_iff.2 ⟨entries.set k (s.pc + 2), rfl, fun j hj => ?_⟩)
    refine (stack_afterCall (addr := addr) (s := s.withStack entries) j).trans ?_
    rw [stack_afterCall]
    split
    · rfl
    · next hne =>
      have hle : j.val < k.val + 1 := hj
      exact hagree j (by simp [hk]; omega)

theorem resultsAlike_exec (i : Instr) (hagree : AgreeInUse s entries) :
    ResultsAlike (exec i s) (exec i (s.withStack entries)) := by
  by_cases hw : .stack ∈ i.writes
  · obtain rfl | ⟨addr, rfl⟩ := stack_mem_writes.1 hw
    · exact resultsAlike_exec_ret hagree
    · exact resultsAlike_exec_call hagree
  · exact resultsAlike_exec_of_not_stack hagree hw

/-- The fetch, the sentinel and the decoder do not see the stack, so both steps take the same branch. -/
theorem resultsAlike_step (hagree : AgreeInUse s entries) : ResultsAlike (step s) (step (s.withStack entries)) := by
  cases hf : s.fault with
  | some r =>
    rw [step_halted hf, step_halted (s := s.withStack entries) hf]
    exact resultsAlike_fault (.halted r)
  | none =>
    obtain ⟨a, hfetch, hstep⟩ | ⟨w, hfetch, hhalt, hstep⟩ | ⟨w, hfetch, hno, hillegal, hstep⟩ |
      ⟨w, i, hfetch, -, hdecode, hstep⟩ := step_cases hf
    · rw [hstep, step_of_fetch_error (s := s.withStack entries) hf hfetch]
      exact resultsAlike_takeFault hagree ..
    · rw [hstep, step_of_sentinel (s := s.withStack entries) hf hfetch hhalt]
      exact resultsAlike_takeFault hagree ..
    · rw [hstep, step_of_illegal (s := s.withStack entries) hf hfetch hno hillegal]
      exact resultsAlike_takeFault hagree ..
    · rw [hstep, step_eq_exec (s := s.withStack entries) hf (nextInstr_eq_some.2 ⟨w, hfetch, hdecode⟩)]
      exact resultsAlike_exec i hagree

end WithStack

/-- Settles O26: the second state is the first with other entries, which agree where they are in use. -/
theorem unusedStackEntriesAreNeverObserved : Obligations.UnusedStackEntriesAreNeverObserved := by
  intro s s' h
  obtain ⟨entries, rfl, hagree⟩ := sameButUnusedStack_iff.1 h
  exact resultsAlike_step hagree

end Sys2Proof.Machine
end

section
/-! PROOFS. The load transaction (60_exceptions.md R227, R218) and the end of a run (70_reset_and_hazards.md R253). -/

namespace Sys2Proof.Machine

/-! ### load -/

section Load

variable {s : State} {image : List Byte}

theorem load_of_started (hf : s.fault = none) (hstarted : s.started = true) :
    load image s = .refused .loadAfterStart := by
  simp only [load, hf, hstarted, if_true]

theorem load_of_fits (hf : s.fault = none) (hstarted : s.started = false) (hfits : image.length ≤ 3584) :
    load image s = .next (s.storeBytes 0x200 image) := by
  simp only [load, hf, hstarted, (imageFits_eq_true image).2 hfits, Bool.false_eq_true, if_false, if_true]

theorem load_of_oversize (hf : s.fault = none) (hstarted : s.started = false) (hsize : 3584 < image.length) :
    load image s = .next (s.enterFault ⟨.malformedImage, none, none, .len image.length⟩) := by
  have hfits : ¬ imageFits image = true := by simpa [imageFits_eq_true] using hsize
  simp only [load, hf, hstarted, hfits, Bool.false_eq_true, if_false]

end Load

/-- Settles O59: an image that fits is one run of byte writes from 0x200 up. -/
theorem loadCopiesTheImageOrRejectsIt : Obligations.LoadCopiesTheImageOrRejectsIt := by
  refine fun s image hf => ⟨fun hstarted hfits => ?_, load_of_oversize hf, load_of_started hf⟩
  refine ⟨_, load_of_fits hf hstarted hfits, fun k b hb => ?_, fun a ha => ?_, rfl⟩
  · obtain ⟨hk, rfl⟩ := List.getElem?_eq_some_iff.1 hb
    rw [State.storeBytes_mem, Memory.read_writeBytes, dif_pos ⟨by omega, by omega⟩]
    simp only [Nat.add_sub_cancel_left]
  · rw [State.storeBytes_mem, Memory.read_writeBytes, dif_neg (by omega)]

/-! ### The end of a run -/

/-- The state with the mark that the core has started, which is all that a step of a Parked or Waiting core writes. -/
def State.markStarted (s : State) : State := { s with started := true }

theorem parked_markStarted {s : State} : Parked s.markStarted ↔ Parked s := Iff.rfl

theorem waiting_markStarted {s : State} : Waiting s.markStarted ↔ Waiting s := Iff.rfl

/-- Both instructions end with PC back at themselves. -/
theorem step_of_parked_or_waiting {s : State} (h : Parked s ∨ Waiting s) : step s = .next s.markStarted := by
  obtain ⟨hf, addr, hi, haddr⟩ | ⟨hf, ⟨x, hi⟩, hkeys⟩ := h
  · calc step s = .next (s.advance.setPc (addrOperand addr)) := step_eq_exec hf hi
      _ = .next s.markStarted := by rw [haddr]; rfl
  · calc step s = exec (.ldVxK x) s := step_eq_exec hf hi
      _ = .next (s.advance.setPc s.pc) := exec_ldVxK_of_none_pressed hkeys

/-- Settles O60: by induction on the number of steps; the marked core is again Parked or Waiting. -/
theorem parkedAndWaitingCoresStay : Obligations.ParkedAndWaitingCoresStay := by
  intro s n h
  induction n generalizing s with
  | zero => simp only [List.replicate, runAll, transact, step_of_parked_or_waiting h]; rfl
  | succ n ih =>
    rw [List.replicate_succ]
    simp only [runAll, transact, step_of_parked_or_waiting h]
    exact ih s.markStarted (h.imp parked_markStarted.2 waiting_markStarted.2)

end Sys2Proof.Machine
end

section
/-! PROOFS. The state after reset (10_state.md R33, R37). -/

namespace Sys2Proof.Machine

/-! ### Memory after reset -/

theorem eq_glyph_row_of_lt {a : Nat} (h : a < 0x50) : ∃ (d : Fin 16) (r : Fin 5), a = 5 * d.val + r.val :=
  ⟨⟨a / 5, by omega⟩, ⟨a % 5, by omega⟩, (Nat.div_add_mod a 5).symm⟩

/-- An address in the font region that memory does not list reads as the conventional font there. -/
theorem Memory.unlisted_glyph_row (d : Fin 16) (r : Fin 5) :
    Memory.unlisted (5 * d.val + r.val) = (Config.conventionalFont[d])[r] := by
  have hd : (5 * d.val + r.val) / 5 = d.val := by omega
  have hr : (5 * d.val + r.val) % 5 = r.val := by omega
  rw [Memory.unlisted, dif_pos (by simp only [Config.fontSize]; omega)]
  simp only [hd, hr, Fin.getElem_fin]

theorem Memory.read_ofFont_of_le {font : Config.Font} {a : Nat} (h : 0x50 ≤ a) : (Memory.ofFont font).read a = 0 := by
  have hlen : (font.toList.flatMap Vector.toList).length = 80 := by simp
  rw [Memory.ofFont, Memory.read_writeBytes, dif_neg (by omega)]
  exact Memory.unlisted_of_fontSize_le h

/-- The conventional font is what unlisted addresses read as, so no byte of it is listed. -/
theorem Memory.ofFont_conventionalFont : Memory.ofFont Config.conventionalFont = [] := by
  refine Memory.ext_of_read (Memory.wf_ofFont _) Memory.wf_nil fun a => ?_
  by_cases h : a < 0x50
  · obtain ⟨d, r, rfl⟩ := eq_glyph_row_of_lt h
    exact (Memory.read_ofFont _ d r).trans (Memory.unlisted_glyph_row d r).symm
  · rw [Memory.read_ofFont_of_le (Nat.not_lt.1 h)]
    exact (Memory.unlisted_of_fontSize_le (Nat.not_lt.1 h)).symm

theorem resetWith_defaults :
    State.resetWith Config.conventionalFont Config.zeroRegs Config.defaultParams = State.reset := by
  rw [State.resetWith, Memory.ofFont_conventionalFont]
  rfl

/-! ### Every field after reset -/

/-- Settles O2: the font is read back from the bytes written, and the other fields are those of `State.resetWith`. -/
theorem resetTakesEveryParameter : Obligations.ResetTakesEveryParameter := by
  refine ⟨resetWith_defaults, ?_⟩
  rintro font regs params _ rfl
  exact ⟨Memory.read_ofFont font, fun a => Memory.read_ofFont_of_le, rfl, rfl, rfl, rfl, rfl, rfl, rfl, rfl, rfl, rfl,
    Framebuffer.pixel_blank, fun k => Vector.getElem_replicate ..⟩

/-- Settles O1: memory lists nothing after reset, so it reads as the conventional font and 0 above it. -/
theorem resetLeavesTheTabledValues : Obligations.ResetLeavesTheTabledValues := by
  refine ⟨fun a ha => ?_, fun a ha _ => Memory.unlisted_of_fontSize_le ha, rfl,
    fun x => Vector.getElem_replicate .., rfl, rfl, fun j => Vector.getElem_replicate .., rfl, rfl,
    Framebuffer.pixel_blank, fun k => Vector.getElem_replicate .., rfl, rfl⟩
  obtain ⟨d, r, rfl⟩ := eq_glyph_row_of_lt ha
  exact ⟨d, r, rfl, Memory.unlisted_glyph_row d r⟩

/-- Settles O3: memory after reset is canonical, no fault is set, and no stack entry is in use. -/
theorem resetMeetsTheInvariants : Obligations.ResetMeetsTheInvariants := by
  have hreset (font regs params) :
      Inv (State.resetWith font regs params) ∧ PcBounded (State.resetWith font regs params) :=
    ⟨inv_of_fault_eq_none (Memory.wf_ofFont font) rfl, (by decide : (0x200 : Word).toNat ≤ 0x10FE),
      fun j hj => absurd hj (Nat.not_lt_zero j.val)⟩
  obtain ⟨hinv, hpc⟩ := hreset Config.conventionalFont Config.zeroRegs Config.defaultParams
  rw [resetWith_defaults] at hinv hpc
  exact ⟨hinv, hpc, hreset⟩

end Sys2Proof.Machine
end
